-- ==== Sys2Proof/Config.lean ====
section
/-! DEFINITION. What whoever integrates the block fixes (rule R4, `93_implementation_defined.md` section 2). -/

namespace Sys2Proof

/-- By how much `W_BUS` exceeds 7. The spec leaves `W_BUS` open (rule R4, decision D3: no default), so this
constant has no body: nothing can be proved of the reset machine's bus width beyond `7 ≤ W_BUS`. Log entry 1. -/
opaque Config.wBusAboveSeven : Nat

/-- `W_BUS`, an integer at least 7 (rule R4). Only `State.reset` reads it: everywhere else the bus width is a
parameter of the state, so statements hold for every `W_BUS`. -/
def Config.wBus : Nat := 7 + Config.wBusAboveSeven

/-- `T_PD`, the propagation delay from a change of an input to the settled outputs: a non-negative real (rule R4).
No source gives it and no rule reads it, so no definition of the model does (`93_implementation_defined.md` X2);
the model has no time in it. Log entry 13. -/
opaque Config.tPd : NNReal

end Sys2Proof
end

