-- ==== Sys2Proof/Word.lean ====
section
/-! DEFINITION. The words on the ports of BR7: the 7-bit operand and result (rule R3), and the value of the
`W_BUS`-bit host bus (rules R4, R32). Bit `k` has weight `2^k` and every value is unsigned (rules R5, R6). -/

namespace Sys2Proof

/-- A 7-bit operand or result: what ports `a` and `y` carry (rules R3, R18). -/
abbrev Word7 := BitVec 7

/-- The value on a host bus together with the bus's own width (ports `i` and `r`, rules R4, R18).
The width of the value on port `i` IS the parameter `W_BUS` of the block; it is stored nowhere else. -/
structure Bus where
  width : Nat
  bits  : BitVec width
deriving DecidableEq, Repr

end Sys2Proof
end

