-- ==== Sys2Proof/Syntax.lean ====
section
/-! DEFINITION. The two operand forms of the one operation (rule R34), and the raw words a host puts on the
input ports (rules R30, R32). No register, immediate, mode or opcode field exists (rules R33, R34, R36). -/

namespace Sys2Proof

/-- The two input ports (rule R18). The port a word is presented on selects the operand form (rule R34). -/
inductive Port where
  /-- The 7-bit CORE port `a`: words of format T7. -/
  | a
  /-- The `W_BUS`-bit guarded port `i`: words of format TW. -/
  | i
deriving DecidableEq, Repr

/-- A raw operand word: the port it is presented on and the levels of the wires, least significant first, so
element `k` of the list is wire `k`, of weight `2^k` (rules R5, R21; the listing order is log entry 9). -/
structure PortWord where
  port   : Port
  levels : List Bool
deriving DecidableEq, Repr

/-- The instruction set: one constructor per row of the opcode table (rule R34). An instruction is one
transaction, one operand held on one input port (rule R8). -/
inductive Instr where
  /-- BITREV7, format T7: the operand on port `a` (rules R30, R40). -/
  | bitrev7 (a : Word7)
  /-- BITREV7.G, format TW: the operand on port `i`, `u` in its upper bits and `a` in bits 6:0 (rules R32, R50). -/
  | bitrev7G (i : Bus)
deriving DecidableEq, Repr

/-- A row of the opcode table (rule R34): a word `w` presented on `port` selects it when
`w & mask == pattern`. -/
structure Row where
  mnemonic : String
  port     : Port
  mask     : Nat
  pattern  : Nat
deriving DecidableEq, Repr

/-- Why a list of levels is not an operand word. -/
inductive DecodeError where
  /-- The list does not have one level for each wire of its port (each format has one fixed length, rule R36). -/
  | wrongLength
  /-- The word selects no row of the opcode table. By rule R34 no word does this: both masks are 0. -/
  | noRow
deriving DecidableEq, Repr

end Sys2Proof
end

