-- ==== Sys2Proof/WellFormed.lean ====
section
/-! DEFINITION. Which terms of `Instr` are instructions of a block whose host bus has `wBus` bits. -/

namespace Sys2Proof

/-- What is wrong with a term that is no instruction of the block. -/
inductive IllFormed where
  /-- A bus narrower than 7 bits: rule R4 asks `W_BUS >= 7`. -/
  | busTooNarrow
  /-- A bus value of another width than the block's port `i` (rules R18, R36). -/
  | notTheBusWidth
deriving DecidableEq, Repr

/-- The first check that `i` fails on a block with a `wBus`-bit host bus, if any. Every 7-bit operand is legal
(rule R35), so BITREV7 has no check; neither has the value on the bus. -/
def Instr.illFormed (wBus : Nat) : Instr → Option IllFormed
  | .bitrev7 _  => none
  | .bitrev7G i =>
    if i.width < 7 then some .busTooNarrow
    else if i.width ≠ wBus then some .notTheBusWidth
    else none

/-- `i` is an instruction of a block with a `wBus`-bit host bus. -/
abbrev Instr.WellFormed (wBus : Nat) (i : Instr) : Prop := i.illFormed wBus = none

end Sys2Proof
end

