-- ==== Sys2Proof/Decode.lean ====
section
/-! DEFINITION. From the levels on an input port to the instruction, and back (rules R30 to R36). -/

namespace Sys2Proof

/-! ### Bit significance: wire `k` has weight `2^k` (rules R5, R21) -/

/-- The unsigned value of a list of levels, least significant first. -/
def bitsValue : List Bool → Nat
  | []      => 0
  | b :: bs => b.toNat + 2 * bitsValue bs

/-- The levels of the low `n` bits of `v`, least significant first. -/
def valueBits : Nat → Nat → List Bool
  | 0, _     => []
  | n + 1, v => decide (v % 2 = 1) :: valueBits n (v / 2)

/-- The levels of the wires that carry `b`, wire 0 first. -/
def wires {w : Nat} (b : BitVec w) : List Bool := valueBits w b.toNat

/-! ### The opcode table (rule R34) -/

/-- The length in bits of the one format of each port: T7 has 7, TW has `W_BUS` (rules R30, R32, R36). -/
def formatLength (wBus : Nat) : Port → Nat
  | .a => 7
  | .i => wBus

/-- The row of the opcode table for each port. Zero opcode bits: mask 0 and match 0 in both. -/
def rowOf : Port → Row
  | .a => { mnemonic := "BITREV7",   port := .a, mask := 0x00, pattern := 0x00 }
  | .i => { mnemonic := "BITREV7.G", port := .i, mask := 0x0,  pattern := 0x0 }

/-- "A word `w` selects a row when `w & mask == match`" (rule R34). -/
def Row.selects (r : Row) (w : Nat) : Bool := (w &&& r.mask) == r.pattern

/-- The operand of each form is the whole word, taken as an unsigned integer (rule R33). -/
def instrOf (wBus : Nat) (p : Port) (v : Nat) : Instr :=
  match p with
  | .a => .bitrev7 (BitVec.ofNat 7 v)
  | .i => .bitrev7G ⟨wBus, BitVec.ofNat wBus v⟩

/-- The instruction that a word on a port is, on a block with a `wBus`-bit host bus (rule R34). -/
def decode (wBus : Nat) (w : PortWord) : Except DecodeError Instr :=
  if w.levels.length ≠ formatLength wBus w.port then .error .wrongLength
  else if (rowOf w.port).selects (bitsValue w.levels) then .ok (instrOf wBus w.port (bitsValue w.levels))
  else .error .noRow

/-- The word that an instruction is: the T7 word on port `a`, or the TW word on port `i` (rules R30, R32). -/
def encode : Instr → PortWord
  | .bitrev7 a  => { port := .a, levels := wires a }
  | .bitrev7G i => { port := .i, levels := wires i.bits }

/-- The mnemonic of the instruction's row of the opcode table. -/
def Instr.mnemonic (i : Instr) : String := (rowOf (encode i).port).mnemonic

/-! ### Words numbered as the opcode table numbers them -/

/-- The port on which a table word of `nbits` bits is presented, which no bit of the word says (rule R34).
A word that fits the 7 wires of port `a` and is given in one byte (or in exactly 7 bits) goes to port `a`;
every other one goes to port `i`. Log entry 10. -/
def tablePort (nbits w : Nat) : Port :=
  if (nbits = 7 ∨ nbits = 8) ∧ w < 128 then .a else .i

/-- The width of the host bus on which a table word of `nbits` bits is presented: `nbits` itself, and never
less than the 7 that rule R4 asks for (the added bits are 0). Log entry 10. -/
def tableBusWidth (nbits : Nat) : Nat := max 7 nbits

/-- The levels of the table word `w` of `nbits` bits on its port; a bit above `nbits` is 0. -/
def tableWord (nbits w : Nat) : PortWord :=
  { port   := tablePort nbits w
    levels := valueBits (formatLength (tableBusWidth nbits) (tablePort nbits w)) (w % 2 ^ nbits) }

/-- The instruction the decoder reads from a word numbered as the opcode table numbers it. -/
def decodeTableWord (nbits w : Nat) : Option Instr :=
  match decode (tableBusWidth nbits) (tableWord nbits w) with
  | .ok i    => some i
  | .error _ => none

end Sys2Proof
end

