-- ==== Sys2Proof/Machine/State.lean ====
section
/-! DEFINITION. What the machine holds. The block has NO architectural state (rules R10 to R17): its own state
type is the unit type. `State` is the block's interface and its environment: the levels the host drives on the
two input ports, and the transactions the host has still to present. The outputs `y`, `r` and `inv` are NOT
stored: they are functions of the input ports (`Machine/Ops.lean`), as rule R10 says they are at every
instant. Log entry 2. -/

namespace Sys2Proof.Machine

/-- The ports and the host. There is no register, flag, program counter, mode, memory or latch to hold
(rules R11 to R17, R20). -/
structure State where
  /-- Input port `a`: the operand the host holds there (rule R18). -/
  a       : Word7
  /-- Input port `i`: the operand the host holds there; its width is `W_BUS` (rules R4, R18). -/
  i       : Bus
  /-- The host's listing: the words it has still to present, next first (rules R9, R37). The model's own. -/
  pending : List PortWord
deriving DecidableEq, Repr

/-- `W_BUS` of this block: the width of its port `i` (rule R18). -/
def State.wBus (s : State) : Nat := s.i.width

/-- Reasons the machine stops with a fault. There are none: BITREV7 has no exception (rule R60), the one
condition of BITREV7.G is a level on the wire `inv` beside a specified result (rules R56, R61, R64), and the
block never traps (rule R9). Safe; log entry 6 (the exact one of the two models of rule R56). -/
inductive Fault where
deriving DecidableEq, Repr

/-- Reasons the machine gives something no meaning. -/
inductive Refusal where
  /-- Raised by `exec` for an instruction that has no meaning in this model yet (no arm does so). Safe. -/
  | notModelled (mnemonic : String)
  /-- Raised by `step` when the host's listing holds a list of levels that is no operand word of its port, so
  that it cannot be put on the wires (rules R36, R78). Safe; log entry 7. -/
  | undecodable (why : DecodeError)
  /-- Raised by BITREV7.G for a term whose bus value has another width than port `i`, which no wires can carry
  (rule R18). No decoded word is such a term. Safe; log entry 7. -/
  | wrongBusWidth (operand port : Nat)
deriving DecidableEq, Repr

/-- One transaction's outputs, once settled (rules R8, R23): what the host may take for it. -/
inductive Result where
  /-- BITREV7: the value on `y` (format R7, rule R31). -/
  | core (y : Word7)
  /-- BITREV7.G: the values on `r` and `inv` (record RW, rule R32). -/
  | guarded (r : Bus) (inv : Bool)
deriving DecidableEq, Repr

/-- The one exception-like condition of the block, by the source's name (rule R61). It has no code, saves
nothing and sends control nowhere (rules R61, R64). -/
inductive Condition where
  | invalidArgument
deriving DecidableEq, Repr

/-- The block on a `w`-bit host bus before its host has presented anything. No rule gives levels for the
inputs then: there is no reset and no reset value (rules R19, R70). Both are 0 here: DESIGN CHOICE, log entry 3;
nothing is listed: log entry 4. -/
def State.resetAt (w : Nat) : State := { a := 0, i := ⟨w, 0⟩, pending := [] }

/-- The block on its own host bus, whose width the spec leaves open (log entry 1). -/
def State.reset : State := State.resetAt Config.wBus

end Sys2Proof.Machine
end

