-- ==== Sys2Proof/Machine/Operands.lean ====
section
/-! DEFINITION. The operand fields of the formats and the widening of a result (rules R32, R33). -/

namespace Sys2Proof.Machine

/-- `i[6:0]`, the operand proper on the host bus: field `a` of format TW (rules R32, R33). -/
def busLow (i : Bus) : Word7 := i.bits.extractLsb' 0 7

/-- `i[W_BUS-1:7]`, the upper bits: field `u` of format TW, empty when `W_BUS = 7` (rules R32, R53). -/
def busUpper (i : Bus) : BitVec (i.width - 7) := i.bits.extractLsb' 7 (i.width - 7)

/-- `zext_W(y)`: a 7-bit result widened to a `w`-bit bus by zeros, never by sign (rules R33, R52). -/
def zextToBus (w : Nat) (y : Word7) : Bus := ⟨w, y.setWidth w⟩

/-- `v` on a bus of `w` bits: the low bits, with zeros above. -/
def resizeBus (w : Nat) (v : Bus) : Bus := ⟨w, v.bits.setWidth w⟩

/-- What reaches the other end of a 7-bit connection made with the opposite significance: wire `k` taken as
weight `2^(6-k)` (rule R21). -/
def oppositeSignificance (v : Word7) : Word7 := v.reverse

end Sys2Proof.Machine
end

