-- ==== Sys2Proof/Machine/Flags.lean ====
section
/-! DEFINITION. The block stores no flag (rule R13); its one error output is computed here. -/

namespace Sys2Proof.Machine

/-- The level of `inv` for the operand `i`: 1 exactly when some bit of `i[W_BUS-1:7]` is 1 (rule R51). -/
def outOfRange (i : Bus) : Bool := busUpper i != 0

end Sys2Proof.Machine
end

