-- ==== Sys2Proof/Machine/Ops.lean ====
section
/-! DEFINITION. The function of the block, its outputs as functions of its input ports, and what a host can do
to a port. Taking an exception and returning from one have no operation here: the block has no trap and no
return (rules R64, R65); its one condition is `State.condition`. -/

namespace Sys2Proof.Machine

/-! ### The function -/

/-- BR7, the 7-bit bit reversal: `y <- {a[0], a[1], a[2], a[3], a[4], a[5], a[6]}`, leftmost most significant
(rule R40). -/
def br7 (a : Word7) : Word7 :=
  BitVec.ofBool (a.getLsbD 0) ++ BitVec.ofBool (a.getLsbD 1) ++ BitVec.ofBool (a.getLsbD 2) ++
  BitVec.ofBool (a.getLsbD 3) ++ BitVec.ofBool (a.getLsbD 4) ++ BitVec.ofBool (a.getLsbD 5) ++
  BitVec.ofBool (a.getLsbD 6)

/-- Term `p` of the source's algorithm: `((a >> p) & 1) << (6-p)` (rule R41). -/
def br7Term (a : Word7) (p : Nat) : Word7 := ((a >>> p) &&& 1) <<< (6 - p)

/-- The source's algorithm: the seven terms joined by OR (rule R41). -/
def br7Terms (a : Word7) : Word7 :=
  br7Term a 0 ||| br7Term a 1 ||| br7Term a 2 ||| br7Term a 3 ||| br7Term a 4 ||| br7Term a 5 ||| br7Term a 6

/-- The wires of a realisation, as swapped pairs (0,6), (1,5), (2,4) and bit 3 alone: output bit `k` is input
bit `crossedWire k` (rule R42). -/
def crossedWire : Nat → Nat
  | 0 => 6
  | 6 => 0
  | 1 => 5
  | 5 => 1
  | 2 => 4
  | 4 => 2
  | k => k

/-! ### The output ports: standing functions of the input ports (rules R10, R18) -/

/-- Output port `y`: `BR7(a)` (rules R18, R40). -/
def State.y (s : State) : Word7 := br7 s.a

/-- Output port `r`: `zext_W_BUS(BR7(i[6:0]))` (rules R18, R50). -/
def State.r (s : State) : Bus := zextToBus s.wBus (br7 (busLow s.i))

/-- Output port `inv`: 1 exactly when the operand on `i` is out of range (rules R18, R51). -/
def State.inv (s : State) : Bool := outOfRange s.i

/-- The condition that holds now: InvalidArgument for as long as `inv` is 1, and no other (rules R61, R63). -/
def State.condition (s : State) : Option Condition := if s.inv then some .invalidArgument else none

/-! ### What a host does to a port -/

/-- The host drives port `a`. It has no effect other than on the outputs (rule R23); port `i` stays as the host
holds it (log entry 8). -/
def State.driveA (s : State) (v : Word7) : State := { s with a := v }

/-- The host drives port `i`. It has no effect other than on the outputs (rule R23); port `a` stays as the host
holds it (log entry 8). -/
def State.driveI (s : State) (v : Bus) : State := { s with i := v }

/-- The host's listing becomes `ws`. -/
def State.withPending (s : State) (ws : List PortWord) : State := { s with pending := ws }

end Sys2Proof.Machine
end

