-- ==== Sys2Proof/Machine/Bitrev.lean ====
section
/-! DEFINITION. The meanings of the two operand forms. A transaction is one value presented on the input port
and held there (rule R8); the result is what the outputs then stand at, since `y <- v` is "a standing equation
between the ports, not an event in time" (`00_scope.md` section 5.1): `State.y`, `State.r` and `State.inv` of
the next state. -/

namespace Sys2Proof.Machine

/-- BITREV7 (rule R40): the operand stands on `a`, and `y` of the next state is `BR7(a)`. Total on its 128
operands, with no exception (rule R49). -/
def execBitrev7 (a : Word7) (s : State) : Host.Outcome State Fault Refusal :=
  .next (s.driveA a)

/-- BITREV7.G (rule R50): the operand stands on `i`, `r` of the next state is `zext(BR7(i[6:0]))` and `inv` is 1
exactly when `i > 127`. No value on the bus faults (rule R56); only a term of another width than port `i` is
refused. -/
def execBitrev7G (i : Bus) (s : State) : Host.Outcome State Fault Refusal :=
  if i.width = s.wBus then .next (s.driveI i) else .refused (.wrongBusWidth i.width s.wBus)

end Sys2Proof.Machine
end

