-- ==== Sys2Proof/Machine/Dispatch.lean ====
section
/-! DEFINITION. One arm per row of the opcode table. -/

namespace Sys2Proof.Machine

def exec (i : Instr) (s : State) : Host.Outcome State Fault Refusal :=
  match i with
  | .bitrev7 a => Sys2Proof.Machine.execBitrev7 a s
  | .bitrev7G v => Sys2Proof.Machine.execBitrev7G v s

end Sys2Proof.Machine
end

