-- ==== Sys2Proof/Machine/Step.lean ====
section
/-! DEFINITION. One step: the host presents the next word of its listing to the block. The block itself fetches
and sequences nothing: "Which operand comes next is decided by the host" (rule R12), and `pending` is that
decision. -/

namespace Sys2Proof.Machine

/-- One transaction (rule R8). With nothing left to present, the step is idle: the host has ceased to present
operands, and the inputs stand as they are (rules R9, R72; log entry 5). -/
def step (s : State) : Host.Outcome State Fault Refusal :=
  match s.pending with
  | []        => .next s
  | w :: rest =>
    match decode s.wBus w with
    | .ok i    => exec i (s.withPending rest)
    | .error e => .refused (.undecodable e)

/-- `s` with a word numbered as the opcode table numbers it put first in the host's listing. When its port is
`i`, the block is one whose host bus has the word's width, since `W_BUS` is open (rule R4; log entries 4, 10). -/
def State.withFetchWord (s : State) (nbits w : Nat) : State :=
  let t := s.withPending (tableWord nbits w :: s.pending)
  match tablePort nbits w with
  | .a => t
  | .i => t.driveI (resizeBus (tableBusWidth nbits) s.i)

end Sys2Proof.Machine
end

