-- ==== Sys2Proof/Machine/Instances.lean ====
section
/-! DEFINITION. Several blocks in one system, which share nothing (rule R28). -/

namespace Sys2Proof.Machine

/-- Present the transaction `i` to block number `k` of a system. With no block of that number the system stays
as it is (log entry 12). -/
def presentTo : Nat → Instr → List State → Host.Outcome (List State) Fault Refusal
  | _, _, []          => .next []
  | 0, i, u :: us     =>
    match exec i u with
    | .next u'   => .next (u' :: us)
    | .fault f   => .fault f
    | .refused e => .refused e
  | k + 1, i, u :: us =>
    match presentTo k i us with
    | .next us'  => .next (u :: us')
    | .fault f   => .fault f
    | .refused e => .refused e

/-- `u2` in cascade after `u1`: the `y` of the first is wired to the `a` of the second (rule R28). -/
def cascade (u1 u2 : State) : State := u2.driveA u1.y

end Sys2Proof.Machine
end

