-- ==== Sys2Proof/Machine/Listing.lean ====
section
/-! DEFINITION. The listing syntax: one line per transaction, a mnemonic and an unsigned operand in decimal, in
binary with `0b` or in hexadecimal with `0x`, and a comment after `;` (rule R37). What rule R37 leaves open of
the text is log entry 11. -/

namespace Sys2Proof.Machine

/-- The value of a digit of the base, if it is one. -/
def digitValue (base : Nat) (c : Char) : Option Nat :=
  let v :=
    if '0' ≤ c ∧ c ≤ '9' then c.toNat - '0'.toNat
    else if 'a' ≤ c ∧ c ≤ 'f' then c.toNat - 'a'.toNat + 10
    else if 'A' ≤ c ∧ c ≤ 'F' then c.toNat - 'A'.toNat + 10
    else base
  if v < base then some v else none

/-- The value of a string of digits after a value already read, most significant digit first. -/
def readDigits (base : Nat) : Nat → List Char → Option Nat
  | acc, []      => some acc
  | acc, c :: cs =>
    match digitValue base c with
    | some d => readDigits base (acc * base + d) cs
    | none   => none

/-- The value of a numeral of the base: one digit at least. -/
def readNumeral (base : Nat) (cs : List Char) : Option Nat :=
  if cs = [] then none else readDigits base 0 cs

/-- An operand of a listing line: `0b…`, `0x…` or decimal (rule R37). -/
def readOperand : List Char → Option Nat
  | '0' :: 'b' :: cs => readNumeral 2 cs
  | '0' :: 'x' :: cs => readNumeral 16 cs
  | cs               => readNumeral 10 cs

/-- Cut a text at its blanks; two blanks in a row leave an empty piece. -/
def cutAtBlanks : List Char → List (List Char)
  | []      => [[]]
  | c :: cs =>
    if c = ' ' then [] :: cutAtBlanks cs
    else match cutAtBlanks cs with
      | []      => [[c]]
      | p :: ps => (c :: p) :: ps

/-- The pieces of a line before its comment. -/
def linePieces (line : List Char) : List (List Char) :=
  (cutAtBlanks (line.takeWhile (· ≠ ';'))).filter (· ≠ [])

/-- The letters of the mnemonic of each row of the opcode table (rule R34): `(rowOf p).mnemonic`, letter by letter. -/
def mnemonicLetters : Port → List Char
  | .a => ['B', 'I', 'T', 'R', 'E', 'V', '7']
  | .i => ['B', 'I', 'T', 'R', 'E', 'V', '7', '.', 'G']

/-- The transaction that a listing line stands for on a block with a `wBus`-bit host bus. An operand that the
line's port cannot carry has none. -/
def readLine (wBus : Nat) (line : List Char) : Option Instr :=
  match linePieces line with
  | [m, n] =>
    match readOperand n with
    | some v =>
      if m = mnemonicLetters .a then
        if v < 2 ^ 7 then some (instrOf wBus .a v) else none
      else if m = mnemonicLetters .i then
        if v < 2 ^ wBus then some (instrOf wBus .i v) else none
      else none
    | none => none
  | _ => none

/-- "A listing line encodes to the operand word of its format" (rule R37). -/
def lineWord (wBus : Nat) (line : List Char) : Option PortWord := (readLine wBus line).map encode

/-- A binary numeral of the levels of a word, the most significant first (rules R5, R37). -/
def binaryDigits (levels : List Bool) : List Char := levels.reverse.map fun b => if b then '1' else '0'

/-- The listing line of a transaction, with its operand in binary (rule R37). -/
def writeLine (i : Instr) : List Char :=
  mnemonicLetters (encode i).port ++ ' ' :: '0' :: 'b' :: binaryDigits (encode i).levels

end Sys2Proof.Machine
end

