-- ==== Sys2Proof/Machine/Results.lean ====
section
/-! DEFINITION. What a host takes from the outputs, transaction by transaction: "the sequence of values that the
outputs settle to, one per transaction" (`95_test_vectors.md` section 4), and the words of formats R7 and RW. -/

namespace Sys2Proof.Machine

/-- What the host takes in state `t` for the transaction `i` now standing on its port (rules R8, R18). -/
def resultIn (t : State) : Instr → Result
  | .bitrev7 _  => .core t.y
  | .bitrev7G _ => .guarded t.r t.inv

/-- The result word, wire 0 first: R7 is the value on `y` (rule R31); RW is `{inv, r}` of `W_BUS + 1` bits,
`inv` at bit `W_BUS` (rule R32). -/
def Result.word : Result → List Bool
  | .core y        => wires y
  | .guarded r inv => wires r.bits ++ [inv]

/-- Present the transactions of a list one after another and note each with the result taken for it; `none`
stands for a term that is no transaction of this block. -/
def transactions : List Instr → State → List (Instr × Option Result)
  | [], _      => []
  | i :: is, s =>
    match exec i s with
    | .next t    => (i, some (resultIn t i)) :: transactions is t
    | .fault _   => (i, none) :: transactions is s
    | .refused _ => (i, none) :: transactions is s

end Sys2Proof.Machine
end

