-- ==== Sys2Proof/Safety.lean ====
section
/-! DEFINITION. What a safe run is, in the terms the statements use. -/

namespace Sys2Proof.Machine

/-- The levels are those of one operand word of their port (rules R30, R32, R36). -/
abbrev FitsPort (wBus : Nat) (w : PortWord) : Prop := w.levels.length = formatLength wBus w.port

/-- The states of a block in use: the host bus has at least 7 bits (rule R4), and everything the host has listed
can be put on the wires of its port. -/
abbrev State.InUse (s : State) : Prop := 7 ≤ s.wBus ∧ ∀ w ∈ s.pending, FitsPort s.wBus w

/-- The host keeps its duty on the wide bus now: `i <= 127` (rule R73). -/
abbrev State.InDomain (s : State) : Prop := s.i.bits.toNat ≤ 127

/-- `k` steps from `s` all complete: no fault, no refusal ("The block never hangs and never traps", rule R9). -/
abbrev SafeRun (k : Nat) (s : State) : Prop := ∃ t, Host.Core.run core k s = .next t

end Sys2Proof.Machine
end

