-- ==== Sys2Proof/Certificates/Slice0/Obligations.lean ====
section
/-! DEFINITION. What the model is claimed to do, stated for the provers. Every statement is for every bus width
that its hypotheses admit (rule R4: `W_BUS` is open). -/

open Sys2Proof Sys2Proof.Machine

/-! ### The machine: reset, step, runs -/

/-- The machine before its host has presented anything is one in use, whatever its bus width of 7 bits or more.
(The model's choice of reset state: log entries 1, 3, 4.) -/
def Obligations.ResetIsInUse : Prop :=
  State.reset.InUse ∧ ∀ w, 7 ≤ w → (State.resetAt w).InUse

/-- Every step of a machine in use leaves it in use: the host bus keeps its width of at least 7 bits, and what the
host has still listed can still be put on the wires. -/
def Obligations.StepKeepsInUse : Prop :=
  ∀ s t : State, s.InUse → step s = .next t → t.InUse ∧ t.wBus = s.wBus

/-- "The block never hangs and never traps" (rule R9): any number of steps of a machine in use completes, and
each presents one word of the listing while there is one; after that a step is idle (the model's choice, log entry 5). -/
def Obligations.EveryRunCompletes : Prop :=
  ∀ (k : Nat) (s : State), s.InUse →
    SafeRun k s ∧
    ∀ t, Host.Core.run core k s = .next t →
      State.InUse t ∧ State.wBus t = s.wBus ∧ State.pending t = s.pending.drop k

/-- A step of a machine whose next listed word decodes to `i` is `exec` of `i` at the state with that word taken
off the listing. -/
def Obligations.StepRunsTheDecodedInstruction : Prop :=
  ∀ (s : State) (w : PortWord) (rest : List PortWord) (i : Instr),
    s.pending = w :: rest → decode s.wBus w = .ok i → step s = exec i (s.withPending rest)

/-- With nothing left to present a step changes nothing (the model's choice, log entry 5). -/
def Obligations.IdleStepChangesNothing : Prop :=
  ∀ s : State, s.pending = [] → step s = .next s

/-- One step presents at most one operand on one port: the bus width never changes, one of the two input ports
keeps its level, and the listing loses its first word, if it has one. Two clauses rest on the model's choices: that
the port not used keeps its level is the independence of the two ports, DEDUCED from rule R18 (log entry 8), and a
step with an empty listing is idle and leaves it empty (log entry 5). -/
def Obligations.StepDrivesAtMostOnePort : Prop :=
  ∀ s t : State, step s = .next t →
    t.wBus = s.wBus ∧ (t.a = s.a ∨ t.i = s.i) ∧ t.pending = s.pending.drop 1

/-- From words to outputs: a machine whose listing is the words of well-formed instructions gives, after each
step, the outputs that rules R40, R50 and R51 give for the transaction just presented. -/
def Obligations.ListingGivesTheSpecifiedOutputs : Prop :=
  ∀ (s : State) (is : List Instr) (k : Nat), k < is.length →
    (∀ i ∈ is, i.WellFormed s.wBus) → s.pending = is.map encode →
    ∃ t : State, Host.Core.run core (k + 1) s = .next t ∧
      t.pending = (is.drop (k + 1)).map encode ∧
      (∀ a, is[k]? = some (.bitrev7 a) →
        t.a = a ∧ ∀ j < 7, t.y.getLsbD j = a.getLsbD (6 - j)) ∧
      (∀ v, is[k]? = some (.bitrev7G v) →
        t.i = v ∧ (∀ j < 7, t.r.bits.getLsbD j = v.bits.getLsbD (6 - j)) ∧
        (∀ j, 7 ≤ j → t.r.bits.getLsbD j = false) ∧ t.inv = decide (128 ≤ v.bits.toNat))

/-- "A host that obeys rule R73 never sees `inv = 1`" (rule R56): if the operand on `i` is in the domain and every
TW word the host has listed is, then `inv` is 0 after every number of steps. -/
def Obligations.DutifulHostNeverSeesInv : Prop :=
  ∀ (k : Nat) (s : State), s.InUse → s.InDomain →
    (∀ w ∈ s.pending, w.port = .i → bitsValue w.levels ≤ 127) →
    ∃ t : State, Host.Core.run core k s = .next t ∧ t.InDomain ∧ t.inv = false ∧ t.condition = none

/-! ### BITREV7 -/

/-- Rule R40: BITREV7 completes on every operand in every state; bit `k` of `y` is bit `6-k` of the operand; and
the corner cases and the worked example of the rule. -/
def Obligations.Bitrev7ReversesItsOperand : Prop :=
  ∀ (a : Word7) (s : State), ∃ t : State, exec (.bitrev7 a) s = .next t ∧ t.a = a ∧
    (∀ k < 7, t.y.getLsbD k = a.getLsbD (6 - k)) ∧
    t.y.toNat = 64 * (a.getLsbD 0).toNat + 32 * (a.getLsbD 1).toNat + 16 * (a.getLsbD 2).toNat +
      8 * (a.getLsbD 3).toNat + 4 * (a.getLsbD 4).toNat + 2 * (a.getLsbD 5).toNat + 1 * (a.getLsbD 6).toNat ∧
    encode (.bitrev7 a) = { port := .a, levels := (List.range 7).map a.getLsbD } ∧
    (rowOf .a).pattern = 0 ∧ (rowOf .a).mask = 0 ∧
    (resultIn t (.bitrev7 a)).word = (List.range 7).map t.y.getLsbD ∧
    (a = 0 → t.y = 0) ∧ (a = 127 → t.y = 127) ∧
    (∀ p < 7, a.toNat = 2 ^ p → t.y.toNat = 2 ^ (6 - p)) ∧
    t.y.getLsbD 3 = a.getLsbD 3 ∧ (a = 8 → t.y = 8) ∧ (a = 21 → t.y = 84)

/-- Rule R41: the source's seven terms, joined by OR, give the same `y`; term `p` is `a[p]` at position `6-p` and
zero elsewhere, no intermediate leaves 7 bits, and the last term needs no mask. -/
def Obligations.SevenTermsGiveTheSameResult : Prop :=
  ∀ (a : Word7) (s : State), ∃ t : State, exec (.bitrev7 a) s = .next t ∧ t.y = br7Terms a ∧
    (∀ p < 7, ((a >>> p) &&& 1).toNat = (a.getLsbD p).toNat ∧
      (br7Term a p).toNat = (a.getLsbD p).toNat * 2 ^ (6 - p) ∧
      ∀ j, (br7Term a p).getLsbD j = (decide (j = 6 - p) && a.getLsbD p)) ∧
    (a >>> 6) &&& 1 = a >>> 6

/-- Rule R42: the wires (0,6), (1,5), (2,4) and bit 3 alone realise the operation, and so does whatever agrees
with the operation on its 128 operands. -/
def Obligations.CrossedWiresRealiseTheOperation : Prop :=
  (∀ (a : Word7) (s : State), ∃ t : State, exec (.bitrev7 a) s = .next t ∧
    ∀ k < 7, t.y.getLsbD k = a.getLsbD (crossedWire k)) ∧
  (∀ k < 7, crossedWire k < 7 ∧ crossedWire (crossedWire k) = k) ∧
  ∀ f : Word7 → Word7, (∀ a, ∀ k < 7, (f a).getLsbD k = a.getLsbD (crossedWire k)) → f = br7

/-- Rule R44: presenting the result as the next operand gives the operand back; the operation is a bijection and
its own inverse. -/
def Obligations.OperationIsAnInvolution : Prop :=
  (∀ (a : Word7) (s : State), ∃ t u : State, exec (.bitrev7 a) s = .next t ∧
    exec (.bitrev7 t.y) t = .next u ∧ u.y = a) ∧
  Function.Bijective br7 ∧ ∀ a b : Word7, br7 a = b ↔ br7 b = a

/-- Rule R45: 0 and 127 are fixed; an operand is fixed exactly when it is a palindrome, exactly when it is one of
16; the other 112 fall into 56 pairs that the operation exchanges. -/
def Obligations.FixedPointsAreThePalindromes : Prop :=
  br7 0 = 0 ∧ br7 127 = 127 ∧
  (∀ a : Word7, br7 a = a ↔ ∀ k < 3, a.getLsbD k = a.getLsbD (6 - k)) ∧
  (∀ a : Word7, br7 a = a ↔
    a ∈ ([0, 8, 20, 28, 34, 42, 54, 62, 65, 73, 85, 93, 99, 107, 119, 127] : List Word7)) ∧
  ((List.range 128).filter fun n => br7 (BitVec.ofNat 7 n) = BitVec.ofNat 7 n).length = 16 ∧
  ((List.range 128).filter fun n => br7 (BitVec.ofNat 7 n) ≠ BitVec.ofNat 7 n).length = 112 ∧
  ((List.range 128).filter fun n => n < (br7 (BitVec.ofNat 7 n)).toNat).length = 56 ∧
  (∀ a : Word7, br7 (br7 a) = a) ∧ br7 1 = 64 ∧ br7 64 = 1 ∧ br7 21 = 84 ∧ br7 84 = 21

/-- Rule R46: the laws of a permutation of bit positions, (1) to (7). -/
def Obligations.PermutationLaws : Prop :=
  (∀ a b : Word7, br7 (a &&& b) = br7 a &&& br7 b ∧ br7 (a ||| b) = br7 a ||| br7 b ∧
    br7 (a ^^^ b) = br7 a ^^^ br7 b ∧ br7 (~~~a) = ~~~(br7 a)) ∧
  (∀ a : Word7, (List.range 7).countP (br7 a).getLsbD = (List.range 7).countP a.getLsbD) ∧
  (∀ p < 7, br7 (BitVec.ofNat 7 (2 ^ p)) = BitVec.ofNat 7 (2 ^ (6 - p))) ∧
  (∀ a : Word7, (a.toNat % 2 = 1 ↔ 64 ≤ (br7 a).toNat) ∧ (64 ≤ a.toNat ↔ (br7 a).toNat % 2 = 1)) ∧
  (∀ (a : Word7) (n : Nat), n ≤ 7 →
    br7 (a >>> n) = (br7 a <<< n) &&& 127 ∧ br7 ((a <<< n) &&& 127) = br7 a >>> n) ∧
  (∀ a : Word7, (∀ p < 7, ∀ q < 7, p ≠ q → br7Term a p &&& br7Term a q = 0) ∧
    ((List.range 7).map fun p => (br7Term a p).toNat).sum = (br7Terms a).toNat ∧
    (List.range 7).foldl (fun x p => x ^^^ br7Term a p) 0 = br7Terms a) ∧
  ((br7 1).toNat = 64 ∧ (br7 2).toNat = 32 ∧ br7 (1 + 1) = 32 ∧ (br7 1).toNat + (br7 1).toNat = 128)

/-- Rule R60: no operand of BITREV7 makes it fail, report or give an unspecified result: it completes in every
state, and what the host takes is the one value `y`, with no error output beside it. -/
def Obligations.CoreFormHasNoException : Prop :=
  ∀ (a : Word7) (s : State), ∃ t : State, exec (.bitrev7 a) s = .next t ∧
    resultIn t (.bitrev7 a) = .core (br7 a) ∧
    (∀ f, exec (.bitrev7 a) s ≠ .fault f) ∧ ∀ e, exec (.bitrev7 a) s ≠ .refused e

/-- Rule R31: the result word of the CORE form has 7 bits, and its bit `k` is bit `6-k` of the operand word. -/
def Obligations.ResultWordIsTheMirroredOperandWord : Prop :=
  ∀ (a : Word7) (s : State), ∃ t : State, exec (.bitrev7 a) s = .next t ∧
    (resultIn t (.bitrev7 a)).word = wires t.y ∧ (wires t.y).length = 7 ∧ t.y.toNat ≤ 127 ∧
    (resultIn t (.bitrev7 a)).word = (encode (.bitrev7 a)).levels.reverse

/-! ### BITREV7.G -/

/-- Rule R50: BITREV7.G completes on every value of its bus; `r` is the reversal of `i[6:0]`, widened by zeros, and
`inv` says whether an upper bit of `i` is 1; and the corner cases and the worked example of the rule. -/
def Obligations.Bitrev7GReversesTheLowBits : Prop :=
  ∀ (v : Bus) (s : State), 7 ≤ s.wBus → v.width = s.wBus →
    ∃ t : State, exec (.bitrev7G v) s = .next t ∧ t.i = v ∧
      t.r = zextToBus s.wBus (br7 (busLow v)) ∧ t.r.bits.toNat = (br7 (busLow v)).toNat ∧
      (∀ k < 7, t.r.bits.getLsbD k = v.bits.getLsbD (6 - k)) ∧
      (∀ k, 7 ≤ k → t.r.bits.getLsbD k = false) ∧
      t.inv = decide (busUpper v ≠ 0) ∧ (t.condition = some .invalidArgument ↔ t.inv = true) ∧
      v.bits.toNat = 2 ^ 7 * (busUpper v).toNat + (busLow v).toNat ∧
      encode (.bitrev7G v) = { port := .i, levels := (List.range v.width).map v.bits.getLsbD } ∧
      (rowOf .i).pattern = 0 ∧ (rowOf .i).mask = 0 ∧
      (v.bits.toNat = 0 → t.r.bits.toNat = 0 ∧ t.inv = false) ∧
      (v.bits.toNat = 127 → t.r.bits.toNat = 127 ∧ t.inv = false) ∧
      (v.bits.toNat = 128 → t.r.bits.toNat = 0 ∧ t.inv = true) ∧
      (v.bits.toNat = 129 → t.r.bits.toNat = 64 ∧ t.inv = true) ∧
      (v.bits.toNat = 2 ^ v.width - 1 → t.r.bits.toNat = 127 ∧ (7 < v.width → t.inv = true)) ∧
      (busLow v = 0 → v.bits.toNat ≠ 0 → t.r.bits.toNat = 0 ∧ t.inv = true) ∧
      (v.bits.toNat = 149 → t.r.bits.toNat = 84 ∧ t.inv = true)

/-- Rule R51: in every state `inv` is the OR of the upper bits of the operand on `i`, which is `i >= 128`, which is
`i[W_BUS-1:7] != 0`; it depends on the present `i` alone and not on `i[6:0]`, and `r` does not depend on
`i[W_BUS-1:7]`. -/
def Obligations.InvIsTheOrOfTheUpperBits : Prop :=
  (∀ s : State,
    s.inv = (List.range (s.wBus - 7)).any (fun j => s.i.bits.getLsbD (7 + j)) ∧
    s.inv = decide (128 ≤ s.i.bits.toNat) ∧ s.inv = decide (busUpper s.i ≠ 0)) ∧
  (∀ s t : State, s.i = t.i → s.inv = t.inv) ∧
  (∀ s t : State, s.wBus = t.wBus →
    (∀ k, 7 ≤ k → s.i.bits.getLsbD k = t.i.bits.getLsbD k) → s.inv = t.inv) ∧
  ∀ s t : State, s.wBus = t.wBus →
    (∀ k < 7, s.i.bits.getLsbD k = t.i.bits.getLsbD k) → s.r = t.r

/-- Rule R52: in every state the upper bits of `r` are zero, so `r <= 127`, and no bit of `i` above position 6
reaches any bit of `r`. -/
def Obligations.UpperResultBitsAreZero : Prop :=
  (∀ s : State, (∀ k, 7 ≤ k → s.r.bits.getLsbD k = false) ∧ s.r.bits.toNat ≤ 127) ∧
  ∀ (s : State) (v : Bus), v.width = s.wBus → (∀ k < 7, v.bits.getLsbD k = s.i.bits.getLsbD k) →
    (s.driveI v).r = s.r

/-- Rule R53: on a 7-bit host bus the field `u` is empty and the guarded form is the CORE form, with `inv` 0. -/
def Obligations.SevenBitBusGivesTheCoreForm : Prop :=
  ∀ (n : Nat) (s : State), s.wBus = 7 → n < 128 →
    ∃ t u : State, exec (.bitrev7G ⟨7, BitVec.ofNat 7 n⟩) s = .next t ∧
      exec (.bitrev7 (BitVec.ofNat 7 n)) s = .next u ∧
      t.r.bits.toNat = (br7 (BitVec.ofNat 7 n)).toNat ∧ t.r.bits.toNat = u.y.toNat ∧ t.inv = false ∧
      wires (busUpper t.i) = []

/-- Rule R54 (less its sentence that carries over the properties of rules R43 to R46): on the domain the guarded form
agrees with BITREV7, whatever `W_BUS` is, and the involution holds through the bus. -/
def Obligations.GuardedFormAgreesOnTheDomain : Prop :=
  ∀ (v : Bus) (s : State), 7 ≤ s.wBus → v.width = s.wBus → v.bits.toNat ≤ 127 →
    ∃ t u x : State, exec (.bitrev7G v) s = .next t ∧
      exec (.bitrev7 (BitVec.ofNat 7 v.bits.toNat)) s = .next u ∧
      t.inv = false ∧ t.r.bits.toNat ≤ 127 ∧
      (∀ k < 7, t.r.bits.getLsbD k = v.bits.getLsbD (6 - k)) ∧
      t.r.bits.toNat = u.y.toNat ∧
      exec (.bitrev7G t.r) t = .next x ∧ x.r = v ∧ x.inv = false

/-- Rule R55: the laws of the guarded form on the whole bus, (1) to (4). -/
def Obligations.LawsOnTheWholeBus : Prop :=
  (∀ (v : Bus) (s : State), 7 ≤ s.wBus → v.width = s.wBus →
    ∃ t u : State, exec (.bitrev7G v) s = .next t ∧
      t.r.bits.toNat = (br7 (BitVec.ofNat 7 (v.bits.toNat &&& 127))).toNat ∧
      exec (.bitrev7G t.r) t = .next u ∧
      u.r.bits.toNat = v.bits.toNat &&& 127 ∧ u.inv = false) ∧
  (∀ s t : State, s.wBus = t.wBus →
    ((∀ k < 7, s.i.bits.getLsbD k = t.i.bits.getLsbD k) → s.r = t.r) ∧
    ((∀ k, 7 ≤ k → s.i.bits.getLsbD k = t.i.bits.getLsbD k) → s.inv = t.inv)) ∧
  ∀ (s : State) (y : Word7), 7 ≤ s.wBus →
    ((Finset.range (2 ^ s.wBus)).filter fun n =>
      (s.driveI ⟨s.wBus, BitVec.ofNat s.wBus n⟩).r.bits.toNat = y.toNat).card = 2 ^ (s.wBus - 7) ∧
    ((Finset.range (2 ^ s.wBus)).filter fun n =>
      (s.driveI ⟨s.wBus, BitVec.ofNat s.wBus n⟩).r.bits.toNat = y.toNat ∧
      (s.driveI ⟨s.wBus, BitVec.ofNat s.wBus n⟩).inv = false).card = 1 ∧
    (7 < s.wBus → ∃ m < 2 ^ s.wBus, ∃ n < 2 ^ s.wBus, m ≠ n ∧
      (s.driveI ⟨s.wBus, BitVec.ofNat s.wBus m⟩).r = (s.driveI ⟨s.wBus, BitVec.ofNat s.wBus n⟩).r)

/-- Rule R32: the TW word is `u` above `a`, with the one wire for each of `W_BUS` bits; the record RW has
`W_BUS + 1` bits, `inv` at bit `W_BUS`, zeros at bits `W_BUS-1` to 7 and `y` at bits 6 to 0. -/
def Obligations.GuardedWordAndRecordLayout : Prop :=
  ∀ (v : Bus) (s : State), 7 ≤ s.wBus → v.width = s.wBus →
    ∃ t : State, exec (.bitrev7G v) s = .next t ∧
      (encode (.bitrev7G v)).port = .i ∧ (encode (.bitrev7G v)).levels.length = s.wBus ∧
      (encode (.bitrev7G v)).levels = wires (busLow v) ++ wires (busUpper v) ∧
      (s.wBus = 7 → wires (busUpper v) = []) ∧
      (resultIn t (.bitrev7G v)).word =
        wires (br7 (busLow v)) ++ List.replicate (s.wBus - 7) false ++ [t.inv] ∧
      (resultIn t (.bitrev7G v)).word.length = s.wBus + 1

/-- A term of another width than port `i` is the only thing `exec` refuses (the model's choice, log entry 7), and
every well-formed instruction completes. -/
def Obligations.WellFormedInstructionsComplete : Prop :=
  (∀ (i : Instr) (s : State), i.WellFormed s.wBus → ∃ t : State, exec i s = .next t ∧ t.wBus = s.wBus) ∧
  ∀ (v : Bus) (s : State), v.width ≠ s.wBus →
    exec (.bitrev7G v) s = .refused (.wrongBusWidth v.width s.wBus)

/-! ### What a transaction leaves unchanged, and the one condition -/

/-- The frame of both forms: a transaction on one port leaves the other port, its outputs, the bus width and the
host's listing as they were. (That the two ports are driven independently is read from rule R18, log entry 8.) -/
def Obligations.TransactionLeavesTheOtherPort : Prop :=
  (∀ (a : Word7) (s t : State), exec (.bitrev7 a) s = .next t →
    t.i = s.i ∧ t.wBus = s.wBus ∧ t.r = s.r ∧ t.inv = s.inv ∧ t.condition = s.condition ∧
    t.pending = s.pending) ∧
  ∀ (v : Bus) (s t : State), exec (.bitrev7G v) s = .next t →
    t.a = s.a ∧ t.y = s.y ∧ t.wBus = s.wBus ∧ t.pending = s.pending

/-- Rule R61: the one condition of the block is InvalidArgument; it holds exactly while the operand on `i` is
outside 0..127, and it records nothing: the state after an out-of-range operand is the one before with that
operand on `i`. That this includes the level on port `a`, which the clause `t = { s with i := v }` also says, is the
independence of the two ports, DEDUCED from rule R18 (log entry 8). -/
def Obligations.InvalidArgumentIsTheOneCondition : Prop :=
  (∀ s : State, (s.condition = some .invalidArgument ↔ ¬ s.i.bits.toNat ≤ 127) ∧
    (s.condition = none ↔ s.i.bits.toNat ≤ 127)) ∧
  ∀ (v : Bus) (s : State), v.width = s.wBus → 128 ≤ v.bits.toNat →
    ∃ t : State, exec (.bitrev7G v) s = .next t ∧ t.condition = some .invalidArgument ∧
      t = { s with i := v }

/-- Rule R65: the condition ends when an in-range operand is put on `i`, and the block is then as if the condition
had never held; a further out-of-range operand keeps `inv` at 1; and no later transaction behaves differently for
what happened while `inv` was 1. -/
def Obligations.ConditionEndsAndLeavesNothing : Prop :=
  ∀ (bad good : Bus) (s : State), bad.width = s.wBus → good.width = s.wBus →
    128 ≤ bad.bits.toNat → good.bits.toNat ≤ 127 →
    ∃ t u : State, exec (.bitrev7G bad) s = .next t ∧ t.inv = true ∧
      exec (.bitrev7G good) t = .next u ∧ u.inv = false ∧ u.condition = none ∧
      exec (.bitrev7G good) s = .next u ∧
      (∀ bad' : Bus, bad'.width = s.wBus → 128 ≤ bad'.bits.toNat →
        ∃ t' : State, exec (.bitrev7G bad') t = .next t' ∧ t'.inv = true) ∧
      ∀ (j : Instr) (x : State), exec j t = .next x →
        ∃ z : State, exec j s = .next z ∧ resultIn z j = resultIn x j

/-- Rule R25: the result of a transaction depends on its own operand alone, not on what any port carried before,
nor on what is listed, nor on which block of that bus width it is presented to. -/
def Obligations.ResultDependsOnTheOperandAlone : Prop :=
  ∀ (i : Instr) (s s' : State), s.wBus = s'.wBus → i.WellFormed s.wBus →
    ∃ t t' : State, exec i s = .next t ∧ exec i s' = .next t' ∧ resultIn t i = resultIn t' i

/-- Rule R25: presenting a set of transactions in any order gives each the same result. -/
def Obligations.OrderOfTransactionsIsIrrelevant : Prop :=
  ∀ (s : State) (l l' : List Instr), l.Perm l' → (transactions l s).Perm (transactions l' s)

/-! ### Several instances and connections -/

/-- Rule R28: a transaction of one instance leaves every other instance of the system as it is; the outputs of an
instance are functions of its own inputs alone; two instances in cascade compute the identity. -/
def Obligations.InstancesShareNothing : Prop :=
  (∀ (sys : List State) (k : Nat) (i : Instr) (u u' : State), sys[k]? = some u → exec i u = .next u' →
    ∃ sys' : List State, presentTo k i sys = .next sys' ∧ sys'.length = sys.length ∧ sys'[k]? = some u' ∧
      ∀ j, j ≠ k → sys'[j]? = sys[j]?) ∧
  (∀ u v : State, (u.a = v.a → u.y = v.y) ∧ (u.i = v.i → u.r = v.r ∧ u.inv = v.inv)) ∧
  ∀ u1 u2 : State, (cascade u1 u2).y = u1.a

/-- From rule R21: a host that connects exactly one 7-bit port with the opposite significance obtains the
identity, and one that connects both obtains the operation again. -/
def Obligations.OppositeSignificance : Prop :=
  ∀ (a : Word7) (s : State), ∃ t u : State, exec (.bitrev7 (oppositeSignificance a)) s = .next t ∧
    exec (.bitrev7 a) s = .next u ∧ t.y = a ∧ oppositeSignificance u.y = a ∧ oppositeSignificance t.y = u.y

/-! ### Decoding, encoding, listings -/

/-- Decoding the word of a well-formed instruction gives it back, with every operand and every bus width. -/
def Obligations.DecodeOfEncode : Prop :=
  ∀ (wBus : Nat) (i : Instr), i.WellFormed wBus → decode wBus (encode i) = .ok i

/-- Each word has one meaning: what decodes to an instruction is that instruction's word, and the instruction is
well-formed. -/
def Obligations.EncodeOfDecode : Prop :=
  ∀ (wBus : Nat) (w : PortWord) (i : Instr), 7 ≤ wBus → decode wBus w = .ok i →
    encode i = w ∧ i.WellFormed wBus

/-- Rule R34: mask and match are 0 in both rows, so every word selects its row; the port alone decides the row;
every 7-bit word on `a` is a BITREV7 and every `W_BUS`-bit word on `i` a BITREV7.G, with operand equal to the
word; and no word is undecodable. -/
def Obligations.EveryWordOfAPortDecodes : Prop :=
  (∀ p : Port, (rowOf p).mask = 0 ∧ (rowOf p).pattern = 0 ∧ ∀ n, (rowOf p).selects n = true) ∧
  (rowOf .a).mnemonic = "BITREV7" ∧ (rowOf .i).mnemonic = "BITREV7.G" ∧
  (∀ (wBus : Nat) (v : Word7),
    decode wBus { port := .a, levels := (List.range 7).map v.getLsbD } = .ok (.bitrev7 v)) ∧
  (∀ (wBus : Nat) (v : BitVec wBus),
    decode wBus { port := .i, levels := (List.range wBus).map v.getLsbD } = .ok (.bitrev7G ⟨wBus, v⟩)) ∧
  ∀ (wBus : Nat) (w : PortWord), FitsPort wBus w →
    ∃ i, decode wBus w = .ok i ∧ i.mnemonic = (rowOf w.port).mnemonic

/-- Each format has one fixed length (rule R36): a list of levels of another length is no word of its port, and a
step that meets one stops by name (the model's choice, log entry 7). -/
def Obligations.OtherLengthsAreNoWords : Prop :=
  ∀ (s : State) (w : PortWord) (rest : List PortWord), ¬ FitsPort s.wBus w → s.pending = w :: rest →
    decode s.wBus w = .error .wrongLength ∧ step s = .refused (.undecodable .wrongLength)

/-- A few words written out from the bit tables of rules R30 and R32 (wire 0 first) decode to what they stand
for: S4 (21 = 0010101), V17 (100 = 1100100), G8 (149 = 10010101), G18 (277) and G30. -/
def Obligations.WordsOfTheSpecDecode : Prop :=
  decode 8 { port := .a, levels := [true, false, true, false, true, false, false] } = .ok (.bitrev7 21) ∧
  decode 8 { port := .a, levels := [false, false, true, false, false, true, true] } = .ok (.bitrev7 100) ∧
  decode 8 { port := .i, levels := [true, false, true, false, true, false, false, true] } =
    .ok (.bitrev7G ⟨8, 149⟩) ∧
  decode 16 { port := .i, levels := [true, false, true, false, true, false, false, false,
    true, false, false, false, false, false, false, false] } = .ok (.bitrev7G ⟨16, 277⟩) ∧
  decode 7 { port := .i, levels := [true, false, true, false, true, false, false] } = .ok (.bitrev7G ⟨7, 21⟩)

/-- A word numbered as the opcode table numbers it always decodes, and a step of a machine given it presents exactly
that instruction and completes (how a word finds its port is the model's choice, log entry 10). -/
def Obligations.TableWordsRunAtOnce : Prop :=
  (∀ (s : State) (nbits w : Nat), ∃ (i : Instr) (t : State), decodeTableWord nbits w = some i ∧
    step (s.withFetchWord nbits w) = exec i ((s.withFetchWord nbits w).withPending s.pending) ∧
    step (s.withFetchWord nbits w) = .next t ∧ t.pending = s.pending) ∧
  (∀ w < 128, decodeTableWord 8 w = some (.bitrev7 (BitVec.ofNat 7 w))) ∧
  ∀ nbits w, 9 ≤ nbits → w < 2 ^ nbits →
    decodeTableWord nbits w = some (.bitrev7G ⟨nbits, BitVec.ofNat nbits w⟩)

/-- From rule R37: an operand of a listing line may be written in decimal, in binary with `0b` or in hexadecimal
with `0x`, most significant digit first, and is read as the number written. `Nat.toDigits 16` writes the small letters
a to f: that they are read is the model's choice (case of digits, log entry 11); the capitals and leading zeros of the
spec's listings are `CapitalsAndLeadingZerosAreRead`. -/
def Obligations.NumeralsAreRead : Prop :=
  ∀ n : Nat, readOperand (Nat.toDigits 10 n) = some n ∧
    readOperand ('0' :: 'b' :: Nat.toDigits 2 n) = some n ∧
    readOperand ('0' :: 'x' :: Nat.toDigits 16 n) = some n

/-- From rule R37 and the spec's own listings (`0b0010101`, `0x7F`, `0x0001`): an operand may have any number of
leading zeros in each base, and capitals A to F as hexadecimal digits. (Rule R37 shows leading zeros in binary; the
programs of `95_test_vectors.md` show them, and the capitals, in hexadecimal; in decimal they are the model's choice, log
entry 11.) -/
def Obligations.CapitalsAndLeadingZerosAreRead : Prop :=
  ∀ n zeros : Nat, readOperand (List.replicate zeros '0' ++ Nat.toDigits 10 n) = some n ∧
    readOperand ('0' :: 'b' :: (List.replicate zeros '0' ++ Nat.toDigits 2 n)) = some n ∧
    readOperand ('0' :: 'x' :: (List.replicate zeros '0' ++ (Nat.toDigits 16 n).map Char.toUpper)) = some n

/-- From rule R37: the listing line of a well-formed instruction, with any comment after it, reads back as that
instruction and encodes to its word. -/
def Obligations.ListingLineReadsBack : Prop :=
  ∀ (wBus : Nat) (i : Instr) (blanks : Nat) (comment : List Char), i.WellFormed wBus →
    readLine wBus (writeLine i ++ List.replicate blanks ' ' ++ ';' :: comment) = some i ∧
    lineWord wBus (writeLine i ++ List.replicate blanks ' ' ++ ';' :: comment) = some (encode i)
end

