-- ==== Sys2Proof/Laws/Bits.lean ====
section
/-! SUPPORT. Lists of levels and the values they carry. -/

namespace Sys2Proof

@[simp] theorem length_valueBits (n v : Nat) : (valueBits n v).length = n := by
  induction n generalizing v with
  | zero => rfl
  | succ n ih => simp [valueBits, ih]

@[simp] theorem length_wires {w : Nat} (b : BitVec w) : (wires b).length = w := length_valueBits _ _

/-- The value of the low `n` levels of `v` is `v` reduced to `n` bits. -/
theorem bitsValue_valueBits (n v : Nat) : bitsValue (valueBits n v) = v % 2 ^ n := by
  induction n generalizing v with
  | zero => simp [valueBits, bitsValue, Nat.mod_one]
  | succ n ih =>
    have hb : (decide (v % 2 = 1)).toNat = v % 2 := by
      rcases Nat.mod_two_eq_zero_or_one v with h | h <;> simp [h]
    rw [valueBits, bitsValue, ih, hb, Nat.pow_succ', Nat.mod_mul]

theorem bitsValue_lt (bs : List Bool) : bitsValue bs < 2 ^ bs.length := by
  induction bs with
  | nil => simp [bitsValue]
  | cons b bs ih =>
    have := Bool.toNat_lt b
    simp only [bitsValue, List.length_cons, Nat.pow_succ']
    omega

/-- A list of levels is recovered from its value and its length. -/
theorem valueBits_bitsValue (bs : List Bool) : valueBits bs.length (bitsValue bs) = bs := by
  induction bs with
  | nil => rfl
  | cons b bs ih =>
    have hq : (b.toNat + 2 * bitsValue bs) / 2 = bitsValue bs := by
      have := Bool.toNat_lt b
      omega
    have hr : decide ((b.toNat + 2 * bitsValue bs) % 2 = 1) = b := by cases b <;> simp
    simp only [bitsValue, List.length_cons, valueBits, hq, hr, ih]

/-- Level `k` is bit `k` of the value (rule R5). -/
theorem valueBits_eq_map (n v : Nat) : valueBits n v = (List.range n).map v.testBit := by
  induction n generalizing v with
  | zero => rfl
  | succ n ih =>
    simp [valueBits, ih, List.range_succ_eq_map, Nat.testBit_zero, Function.comp_def, Nat.testBit_succ]

/-- Wire `k` carries bit `k` (rule R21). -/
theorem wires_eq_map {w : Nat} (b : BitVec w) : wires b = (List.range w).map b.getLsbD := by
  rw [wires, valueBits_eq_map]
  rfl

@[simp] theorem bitsValue_wires {w : Nat} (b : BitVec w) : bitsValue (wires b) = b.toNat := by
  rw [wires, bitsValue_valueBits, Nat.mod_eq_of_lt b.isLt]

/-- Two bus values of the same width and the same number are the same. -/
theorem Bus.ext_toNat {x y : Bus} (hw : x.width = y.width) (hb : x.bits.toNat = y.bits.toNat) : x = y := by
  obtain ⟨w, b⟩ := x
  obtain ⟨w', b'⟩ := y
  obtain rfl : w = w' := hw
  exact congrArg _ (BitVec.eq_of_toNat_eq hb)

end Sys2Proof
end

