-- ==== Sys2Proof/Laws/Decode.lean ====
section
/-! SUPPORT. What decoding and encoding can do. -/

namespace Sys2Proof

/-- With mask 0 and match 0 every word selects its port's row (rule R34). -/
@[simp] theorem rowOf_selects (p : Port) (n : Nat) : (rowOf p).selects n = true := by
  cases p <;> simp [rowOf, Row.selects]

/-- A word of its port's length is decoded as the whole word. -/
theorem decode_of_length {wBus : Nat} {w : PortWord} (h : w.levels.length = formatLength wBus w.port) :
    decode wBus w = .ok (instrOf wBus w.port (bitsValue w.levels)) := by simp [decode, h]

/-- A list of levels of another length is no word of its port. -/
theorem decode_of_length_ne {wBus : Nat} {w : PortWord} (h : w.levels.length ≠ formatLength wBus w.port) :
    decode wBus w = .error .wrongLength := by simp [decode, h]

/-- What is decoded was a word of its port's length. -/
theorem decode_eq_ok {wBus : Nat} {w : PortWord} {i : Instr} (h : decode wBus w = .ok i) :
    w.levels.length = formatLength wBus w.port ∧ i = instrOf wBus w.port (bitsValue w.levels) := by
  by_cases hl : w.levels.length = formatLength wBus w.port
  · rw [decode_of_length hl] at h
    exact ⟨hl, (Except.ok.inj h).symm⟩
  · rw [decode_of_length_ne hl] at h
    cases h

/-- A well-formed instruction of the guarded form has the width of the block's bus, at least 7. -/
theorem wellFormed_bitrev7G_iff {wBus : Nat} {v : Bus} :
    (Instr.bitrev7G v).WellFormed wBus ↔ 7 ≤ v.width ∧ v.width = wBus := by
  simp only [Instr.WellFormed, Instr.illFormed]
  split
  · simp; omega
  · split <;> simp <;> omega

@[simp] theorem wellFormed_bitrev7 (wBus : Nat) (a : Word7) : (Instr.bitrev7 a).WellFormed wBus := rfl

/-- The letters that a listing spells a mnemonic with are those of the opcode table. -/
theorem mnemonicLetters_eq (p : Port) : Machine.mnemonicLetters p = (rowOf p).mnemonic.toList := by
  cases p <;> rfl

end Sys2Proof
end

