-- ==== Sys2Proof/Laws/State.lean ====
section
/-! SUPPORT. One lemma for each field and each output after each update of the state. -/

namespace Sys2Proof.Machine

variable (s : State) (a : Word7) (v : Bus) (ws : List PortWord)

@[simp] theorem driveA_a : (s.driveA a).a = a := rfl
@[simp] theorem driveA_i : (s.driveA a).i = s.i := rfl
@[simp] theorem driveA_pending : (s.driveA a).pending = s.pending := rfl
@[simp] theorem driveA_wBus : (s.driveA a).wBus = s.wBus := rfl
@[simp] theorem driveA_y : (s.driveA a).y = br7 a := rfl
@[simp] theorem driveA_r : (s.driveA a).r = s.r := rfl
@[simp] theorem driveA_inv : (s.driveA a).inv = s.inv := rfl
@[simp] theorem driveA_condition : (s.driveA a).condition = s.condition := rfl

@[simp] theorem driveI_a : (s.driveI v).a = s.a := rfl
@[simp] theorem driveI_i : (s.driveI v).i = v := rfl
@[simp] theorem driveI_pending : (s.driveI v).pending = s.pending := rfl
@[simp] theorem driveI_wBus : (s.driveI v).wBus = v.width := rfl
@[simp] theorem driveI_y : (s.driveI v).y = s.y := rfl
@[simp] theorem driveI_r : (s.driveI v).r = zextToBus v.width (br7 (busLow v)) := rfl
@[simp] theorem driveI_inv : (s.driveI v).inv = outOfRange v := rfl
@[simp] theorem driveI_driveI (v' : Bus) : (s.driveI v').driveI v = s.driveI v := rfl

@[simp] theorem withPending_a : (s.withPending ws).a = s.a := rfl
@[simp] theorem withPending_i : (s.withPending ws).i = s.i := rfl
@[simp] theorem withPending_pending : (s.withPending ws).pending = ws := rfl
@[simp] theorem withPending_wBus : (s.withPending ws).wBus = s.wBus := rfl
@[simp] theorem withPending_y : (s.withPending ws).y = s.y := rfl
@[simp] theorem withPending_r : (s.withPending ws).r = s.r := rfl
@[simp] theorem withPending_inv : (s.withPending ws).inv = s.inv := rfl

@[simp] theorem resetAt_a (w : Nat) : (State.resetAt w).a = 0 := rfl
@[simp] theorem resetAt_i (w : Nat) : (State.resetAt w).i = ⟨w, 0⟩ := rfl
@[simp] theorem resetAt_wBus (w : Nat) : (State.resetAt w).wBus = w := rfl
@[simp] theorem resetAt_pending (w : Nat) : (State.resetAt w).pending = [] := rfl

/-- The condition that holds is InvalidArgument exactly when `inv` is 1. -/
theorem condition_eq_some_iff (c : Condition) : s.condition = some c ↔ s.inv = true := by
  cases c
  cases h : s.inv <;> simp [State.condition, h]

/-- The open bus width of the reset machine is one the spec allows. -/
theorem seven_le_config_wBus : 7 ≤ Config.wBus := by simp [Config.wBus]

end Sys2Proof.Machine
end

