-- ==== Sys2Proof/Laws/Ops.lean ====
section
/-! SUPPORT. What the function of the block and the operand fields are, bit by bit. -/

namespace Sys2Proof.Machine

/-- Bit `k` of the result is bit `6-k` of the operand. -/
theorem br7_getLsbD (a : Word7) {k : Nat} (hk : k < 7) : (br7 a).getLsbD k = a.getLsbD (6 - k) := by
  revert a
  interval_cases k <;> decide

theorem busLow_getLsbD (v : Bus) (k : Nat) : (busLow v).getLsbD k = (decide (k < 7) && v.bits.getLsbD k) := by
  simp [busLow]

theorem busLow_toNat (v : Bus) : (busLow v).toNat = v.bits.toNat % 128 := by simp [busLow]

theorem busUpper_toNat (v : Bus) : (busUpper v).toNat = v.bits.toNat / 128 := by
  have h := v.bits.isLt
  have hd : v.bits.toNat / 128 < 2 ^ (v.width - 7) := by
    rcases Nat.le_total 7 v.width with hw | hw
    · have : 2 ^ v.width = 128 * 2 ^ (v.width - 7) := by
        rw [show (128 : Nat) = 2 ^ 7 from rfl, ← Nat.pow_add]
        congr 1
        omega
      omega
    · have : 2 ^ v.width ≤ 2 ^ 7 := Nat.pow_le_pow_right (by omega) hw
      rw [Nat.div_eq_of_lt (by omega)]
      exact Nat.two_pow_pos _
  simp [busUpper, Nat.shiftRight_eq_div_pow, Nat.mod_eq_of_lt hd]

@[simp] theorem zextToBus_width (w : Nat) (y : Word7) : (zextToBus w y).width = w := rfl

theorem zextToBus_toNat {w : Nat} (hw : 7 ≤ w) (y : Word7) : (zextToBus w y).bits.toNat = y.toNat := by
  simp only [zextToBus, BitVec.toNat_setWidth]
  exact Nat.mod_eq_of_lt (Nat.lt_of_lt_of_le y.isLt (Nat.pow_le_pow_right (by omega) hw))

/-- An operand is out of range exactly when it exceeds 127. -/
theorem outOfRange_iff (v : Bus) : outOfRange v = true ↔ 128 ≤ v.bits.toNat := by
  rw [outOfRange, bne_iff_ne, ne_eq, ← BitVec.toNat_inj, busUpper_toNat]
  simp only [BitVec.ofNat_eq_ofNat, BitVec.toNat_ofNat, Nat.zero_mod]
  omega

end Sys2Proof.Machine
end

