-- ==== Sys2Proof/Laws/PerInstr.lean ====
section
/-! SUPPORT. Facts stated for every instruction, one lemma per constructor. -/

namespace Sys2Proof.Laws.FormatLength

/-- On a block of its bus width, an instruction's word has the one fixed length of its port's format (rule R36). -/
def Statement (i : Instr) : Prop :=
  ∀ wBus, i.WellFormed wBus → (encode i).levels.length = formatLength wBus (encode i).port

theorem bitrev7 (a : Word7) : Statement (.bitrev7 a) := fun _ _ => length_wires a

theorem bitrev7G (v : Bus) : Statement (.bitrev7G v) := by
  intro wBus h
  simp only [Instr.WellFormed, Instr.illFormed] at h
  split at h
  · cases h
  · split at h
    · cases h
    · next _ hw => simpa [encode, formatLength] using hw

end Sys2Proof.Laws.FormatLength
end

