-- ==== Sys2Proof/Laws/Step.lean ====
section
/-! SUPPORT. Everything an instruction and a step can do. -/

namespace Sys2Proof.Machine

@[simp] theorem exec_bitrev7 (a : Word7) (s : State) : exec (.bitrev7 a) s = .next (s.driveA a) := rfl

theorem exec_bitrev7G_of_width {v : Bus} {s : State} (h : v.width = s.wBus) :
    exec (.bitrev7G v) s = .next (s.driveI v) := by simp [exec, execBitrev7G, h]

theorem exec_bitrev7G_of_width_ne {v : Bus} {s : State} (h : v.width ≠ s.wBus) :
    exec (.bitrev7G v) s = .refused (.wrongBusWidth v.width s.wBus) := by simp [exec, execBitrev7G, h]

/-- A completed transaction drove one port with its operand and did nothing else. -/
theorem exec_cases {i : Instr} {s t : State} (h : exec i s = .next t) :
    (∃ a, i = .bitrev7 a ∧ t = s.driveA a) ∨
    (∃ v, i = .bitrev7G v ∧ v.width = s.wBus ∧ t = s.driveI v) := by
  cases i with
  | bitrev7 a =>
    rw [exec_bitrev7] at h
    exact .inl ⟨a, rfl, (Host.Outcome.next.inj h).symm⟩
  | bitrev7G v =>
    by_cases hw : v.width = s.wBus
    · rw [exec_bitrev7G_of_width hw] at h
      exact .inr ⟨v, rfl, hw, (Host.Outcome.next.inj h).symm⟩
    · rw [exec_bitrev7G_of_width_ne hw] at h
      cases h

/-- A completed step was idle, or it presented the first word of the listing. -/
theorem step_cases {s t : State} (h : step s = .next t) :
    (s.pending = [] ∧ t = s) ∨
    (∃ w rest i, s.pending = w :: rest ∧ decode s.wBus w = .ok i ∧ exec i (s.withPending rest) = .next t) := by
  unfold step at h
  split at h
  · next hp => exact .inl ⟨hp, (Host.Outcome.next.inj h).symm⟩
  · next w rest hp =>
    split at h
    · next i hd => exact .inr ⟨w, rest, i, hp, hd, h⟩
    · cases h

theorem core_run_succ (M : Host.Core) (k : Nat) {s t : M.State} (h : M.step s = .next t) :
    M.run (k + 1) s = M.run k t := by simp only [Host.Core.run, h]

/-- A run whose first step completes goes on from there. -/
theorem run_succ_of_step (k : Nat) {s t : State} (h : step s = .next t) :
    Host.Core.run core (k + 1) s = Host.Core.run core k t := core_run_succ core k h

end Sys2Proof.Machine
end

