-- ==== Sys2Proof/Tests/Slice0.lean ====
section
/-! SUPPORT. Tests with results taken from the spec (the vector of `95_test_vectors.md` is named beside each), the
refusals of the checks, and, for every statement with hypotheses, a witness that meets them. -/

namespace Sys2Proof.Machine.Test

/-- The number `n` on a bus of `w` bits. -/
def onBus (w n : Nat) : Bus := ⟨w, BitVec.ofNat w n⟩

/-- A block on a `w`-bit bus whose host has listed the words `ws`. -/
def listed (w : Nat) (ws : List PortWord) : State := (State.resetAt w).withPending ws

/-- The T7 word 0010101 (21), wire 0 first. -/
def word21 : PortWord := { port := .a, levels := [true, false, true, false, true, false, false] }

/-- The TW word 10010101 (149) on an 8-bit bus, wire 0 first. -/
def word149 : PortWord := { port := .i, levels := [true, false, true, false, true, false, false, true] }

/-- The TW word 01111111 (127) on an 8-bit bus, wire 0 first. -/
def word127 : PortWord := { port := .i, levels := [true, true, true, true, true, true, true, false] }

/-! ### Well-formedness refuses -/

theorem test_wellFormed_refuses_narrow_bus :
    (Instr.bitrev7G (onBus 6 5)).illFormed 6 = some .busTooNarrow := by decide

theorem test_wellFormed_refuses_other_width :
    (Instr.bitrev7G (onBus 16 5)).illFormed 8 = some .notTheBusWidth := by decide

theorem test_wellFormed_admits_bus : (Instr.bitrev7G (onBus 8 255)).WellFormed 8 := by decide

/-! ### Decoding and encoding, from the bit tables of rules R30 and R32 -/

/-- S4: the T7 word of 21. -/
theorem test_decode_T7 : decode 8 word21 = .ok (.bitrev7 21) := by decide

/-- G8: the TW word of 149 with `W_BUS = 8`. -/
theorem test_decode_TW : decode 8 word149 = .ok (.bitrev7G (onBus 8 149)) := by decide

/-- Six levels are no word of the seven wires of port `a` (rule R36). -/
theorem test_decode_refuses_short_word :
    decode 8 { port := .a, levels := [true, false, true, false, true, false] } = .error .wrongLength := by decide

/-- V9: 64 is wire 6 alone. -/
theorem test_encode_T7 : encode (.bitrev7 64) =
    { port := .a, levels := [false, false, false, false, false, false, true] } := by decide

/-- G7: the TW word of 129 with `W_BUS = 8`. -/
theorem test_encode_TW : encode (.bitrev7G (onBus 8 129)) =
    { port := .i, levels := [true, false, false, false, false, false, false, true] } := by decide

theorem test_decodeTableWord_T7 : decodeTableWord 8 21 = some (.bitrev7 21) := by decide
theorem test_decodeTableWord_TW : decodeTableWord 16 0x1234 = some (.bitrev7G (onBus 16 0x1234)) := by decide

/-! ### The two operand forms -/

/-- S4: `BITREV7 21` gives 84. -/
theorem test_bitrev7_21 : ∃ t, exec (.bitrev7 21) (State.resetAt 8) = .next t ∧ t.y = 84 :=
  ⟨_, rfl, by decide⟩

/-- V17: `BITREV7 100` gives 19. -/
theorem test_bitrev7_100 : ∃ t, exec (.bitrev7 100) (State.resetAt 8) = .next t ∧ t.y = 19 :=
  ⟨_, rfl, by decide⟩

/-- G8: `BITREV7.G 0x95` on 8 bits gives `r = 0x54`, `inv = 1`. -/
theorem test_bitrev7G_149 : ∃ t, exec (.bitrev7G (onBus 8 0x95)) (State.resetAt 8) = .next t ∧
    t.r = onBus 8 0x54 ∧ t.inv = true := ⟨_, rfl, by decide⟩

/-- G17: `BITREV7.G 0x0100` on 16 bits has bit 7 clear and gives `r = 0`, `inv = 1`. -/
theorem test_bitrev7G_256 : ∃ t, exec (.bitrev7G (onBus 16 0x100)) (State.resetAt 16) = .next t ∧
    t.r = onBus 16 0 ∧ t.inv = true := ⟨_, rfl, by decide⟩

/-- G31 and rule R53: on a 7-bit bus `inv` is 0. -/
theorem test_r_inv_seven_bit_bus :
    ((State.resetAt 7).driveI (onBus 7 127)).r = onBus 7 127 ∧
    ((State.resetAt 7).driveI (onBus 7 127)).inv = false := by decide

/-- G28: all ones on 32 bits, as record RW: seven ones, 25 zeros, and `inv` = 1 at bit 32. -/
theorem test_record_RW_all_ones :
    (resultIn ((State.resetAt 32).driveI (onBus 32 0xFFFFFFFF)) (.bitrev7G (onBus 32 0xFFFFFFFF))).word =
      List.replicate 7 true ++ List.replicate 25 false ++ [true] := by decide

/-- V28: the seven terms of rule R41 for 52 are 0, 0, 16, 0, 4, 2, 0. -/
theorem test_terms_of_52 : (List.range 7).map (br7Term 52) = [0, 0, 16, 0, 4, 2, 0] := by decide

/-- The first transaction after reset, whatever the bus width: S3, `BITREV7 64` gives 1. -/
theorem test_first_step_after_reset_T7 :
    ∃ t, step (State.reset.withFetchWord 8 64) = .next t ∧ t.y = 1 := ⟨_, rfl, by decide⟩

/-- The first transaction after reset on a 16-bit bus: G23, `BITREV7.G 0x1234` gives `r = 0x16`, `inv = 1`. -/
theorem test_first_step_after_reset_TW :
    ∃ t, step (State.reset.withFetchWord 16 0x1234) = .next t ∧ t.r = onBus 16 0x16 ∧ t.inv = true :=
  ⟨_, rfl, by decide⟩

/-- P2: 21 through two blocks in cascade is 21 again. -/
theorem test_cascade_21 : (cascade ((State.resetAt 8).driveA 21) (State.resetAt 8)).y = 21 := by decide

/-- Rule R37 and P3: a hexadecimal line with a comment. -/
theorem test_readLine_hexadecimal : readLine 8
    ['B', 'I', 'T', 'R', 'E', 'V', '7', '.', 'G', ' ', ' ', '0', 'x', '9', '5', ' ', ';', ' ', '1'] =
    some (.bitrev7G (onBus 8 149)) := by rfl

/-- Rule R37: a decimal line. -/
theorem test_readLine_decimal : readLine 8 ['B', 'I', 'T', 'R', 'E', 'V', '7', ' ', '2', '1'] =
    some (.bitrev7 21) := by rfl

/-- Rule R37 and P4: capitals and leading zeros, `0x007F`. -/
theorem test_readOperand_capital_zeros : readOperand ['0', 'x', '0', '0', '7', 'F'] = some 127 := by rfl

/-- An operand that port `a` cannot carry is refused. -/
theorem test_readLine_refuses_128 : readLine 8 ['B', 'I', 'T', 'R', 'E', 'V', '7', ' ', '1', '2', '8'] = none := by
  rfl

/-! ### Witnesses: states and operands that meet the hypotheses of each statement -/

theorem witness_ResetIsInUse : 7 ≤ 7 ∧ (State.resetAt 7).wBus = 7 := by decide

theorem witness_StepKeepsInUse : ∃ s t : State, s.InUse ∧ step s = .next t ∧ s.pending ≠ [] :=
  ⟨listed 8 [word149, word21], _, by decide, rfl, by decide⟩

theorem witness_EveryRunCompletes : ∃ s t : State, s.InUse ∧ s.pending.length = 2 ∧
    Host.Core.run core 2 s = .next t := ⟨listed 8 [word149, word21], _, by decide, rfl, rfl⟩

theorem witness_StepRunsTheDecodedInstruction : ∃ (s : State) (w : PortWord) (rest : List PortWord) (i : Instr),
    s.pending = w :: rest ∧ decode s.wBus w = .ok i :=
  ⟨listed 8 [word149, word21], word149, [word21], .bitrev7G (onBus 8 149), rfl, by decide⟩

theorem witness_IdleStepChangesNothing : ((State.resetAt 8).driveA 21).pending = [] := rfl

theorem witness_StepDrivesAtMostOnePort : ∃ s t : State, step s = .next t ∧ t.a ≠ s.a :=
  ⟨listed 8 [word21], _, rfl, by decide⟩

theorem witness_ListingGivesTheSpecifiedOutputs : ∃ (s : State) (is : List Instr),
    1 < is.length ∧ (∀ i ∈ is, i.WellFormed s.wBus) ∧ s.pending = is.map encode ∧
    is[0]? = some (.bitrev7 21) ∧ is[1]? = some (.bitrev7G (onBus 8 149)) :=
  ⟨listed 8 [word21, word149], [.bitrev7 21, .bitrev7G (onBus 8 149)], by decide⟩

theorem witness_DutifulHostNeverSeesInv : ∃ s : State, s.InUse ∧ s.InDomain ∧ s.pending ≠ [] ∧
    ∀ w ∈ s.pending, w.port = .i → bitsValue w.levels ≤ 127 := ⟨listed 8 [word127, word21], by decide⟩

theorem witness_CrossedWiresRealiseTheOperation :
    ∃ f : Word7 → Word7, ∀ a, ∀ k < 7, (f a).getLsbD k = a.getLsbD (crossedWire k) :=
  ⟨br7, fun a k hk => by rw [br7_getLsbD a hk]; interval_cases k <;> rfl⟩

/-- Each clause of the rule's corner cases has its operand (R40). -/
theorem witness_Bitrev7ReversesItsOperand :
    ∃ a0 a127 a1 a64 a8 a21 : Word7, a0 = 0 ∧ a127 = 127 ∧ a1.toNat = 2 ^ 0 ∧ a64.toNat = 2 ^ 6 ∧ a8 = 8 ∧ a21 = 21 :=
  ⟨0, 127, 1, 64, 8, 21, by decide⟩

/-- The least and the greatest position and shift of the laws, on an operand with both end bits (R41, R46). -/
theorem witness_SevenTermsGiveTheSameResult_and_PermutationLaws :
    br7Term 65 0 = 64 ∧ br7Term 65 6 = 1 ∧ (0 : Nat) ≠ 6 ∧
    br7 ((65 : Word7) >>> 0) = 65 ∧ br7 ((65 : Word7) >>> 7) = 0 := by decide

/-- Palindromes and operands that are none (R45). -/
theorem witness_FixedPointsAreThePalindromes :
    (∃ a : Word7, br7 a = a ∧ ∀ k < 3, a.getLsbD k = a.getLsbD (6 - k)) ∧ ∃ a : Word7, br7 a ≠ a :=
  ⟨⟨20, by decide⟩, ⟨1, by decide⟩⟩

/-- Each clause of the rule's corner cases has its operand, on the narrowest bus that carries it (R50). -/
theorem witness_Bitrev7GReversesTheLowBits :
    (∃ (v : Bus) (s : State), 7 ≤ s.wBus ∧ v.width = s.wBus ∧ v.bits.toNat = 0) ∧
    (∃ (v : Bus) (s : State), 7 ≤ s.wBus ∧ v.width = s.wBus ∧ v.bits.toNat = 127 ∧
      v.bits.toNat = 2 ^ v.width - 1) ∧
    (∃ (v : Bus) (s : State), 7 ≤ s.wBus ∧ v.width = s.wBus ∧ v.bits.toNat = 128 ∧ busLow v = 0) ∧
    (∃ (v : Bus) (s : State), 7 ≤ s.wBus ∧ v.width = s.wBus ∧ v.bits.toNat = 129) ∧
    (∃ (v : Bus) (s : State), 7 ≤ s.wBus ∧ v.width = s.wBus ∧ v.bits.toNat = 2 ^ v.width - 1 ∧ 7 < v.width) ∧
    ∃ (v : Bus) (s : State), 7 ≤ s.wBus ∧ v.width = s.wBus ∧ v.bits.toNat = 149 :=
  ⟨⟨onBus 7 0, State.resetAt 7, by decide⟩, ⟨onBus 7 127, State.resetAt 7, by decide⟩,
   ⟨onBus 8 128, State.resetAt 8, by decide⟩, ⟨onBus 8 129, State.resetAt 8, by decide⟩,
   ⟨onBus 8 255, State.resetAt 8, by decide⟩, ⟨onBus 8 149, State.resetAt 8, by decide⟩⟩

/-- G8 and G10 agree in their upper bit, G3 and G8 in their low bits (R51). -/
theorem witness_InvIsTheOrOfTheUpperBits :
    (∃ s t : State, s.i = t.i ∧ s.a ≠ t.a) ∧
    (∃ s t : State, s.wBus = t.wBus ∧ s.i ≠ t.i ∧ ∀ k, 7 ≤ k → s.i.bits.getLsbD k = t.i.bits.getLsbD k) ∧
    ∃ s t : State, s.wBus = t.wBus ∧ s.i ≠ t.i ∧ ∀ k < 7, s.i.bits.getLsbD k = t.i.bits.getLsbD k := by
  refine ⟨⟨State.resetAt 8, (State.resetAt 8).driveA 1, by decide⟩,
    ⟨(State.resetAt 8).driveI (onBus 8 149), (State.resetAt 8).driveI (onBus 8 200), by decide, by decide, ?_⟩,
    ⟨(State.resetAt 8).driveI (onBus 8 21), (State.resetAt 8).driveI (onBus 8 149), by decide⟩⟩
  intro k hk
  obtain rfl | hk : k = 7 ∨ 8 ≤ k := by omega
  · decide
  · simp [onBus, BitVec.getLsbD_of_ge, hk]

theorem witness_UpperResultBitsAreZero : ∃ (s : State) (v : Bus), v.width = s.wBus ∧ v ≠ s.i ∧
    ∀ k < 7, v.bits.getLsbD k = s.i.bits.getLsbD k :=
  ⟨(State.resetAt 8).driveI (onBus 8 21), onBus 8 149, by decide⟩

theorem witness_SevenBitBusGivesTheCoreForm : ∃ (n : Nat) (s : State), s.wBus = 7 ∧ n < 128 ∧ n = 127 :=
  ⟨127, State.resetAt 7, by decide⟩

theorem witness_GuardedFormAgreesOnTheDomain : ∃ (v : Bus) (s : State),
    7 ≤ s.wBus ∧ v.width = s.wBus ∧ v.bits.toNat ≤ 127 ∧ v.bits.toNat = 127 :=
  ⟨onBus 16 127, State.resetAt 16, by decide⟩

theorem witness_LawsOnTheWholeBus : ∃ (v : Bus) (s : State), 7 < s.wBus ∧ v.width = s.wBus :=
  ⟨onBus 8 149, State.resetAt 8, by decide⟩

theorem witness_GuardedWordAndRecordLayout :
    (∃ (v : Bus) (s : State), 7 ≤ s.wBus ∧ v.width = s.wBus ∧ s.wBus = 7) ∧
    ∃ (v : Bus) (s : State), 7 < s.wBus ∧ v.width = s.wBus :=
  ⟨⟨onBus 7 21, State.resetAt 7, by decide⟩, ⟨onBus 8 149, State.resetAt 8, by decide⟩⟩

theorem witness_WellFormedInstructionsComplete :
    (∃ (v : Bus) (s : State), (Instr.bitrev7G v).WellFormed s.wBus) ∧ ∃ (v : Bus) (s : State), v.width ≠ s.wBus :=
  ⟨⟨onBus 7 127, State.resetAt 7, by decide⟩, ⟨onBus 16 1, State.resetAt 8, by decide⟩⟩

theorem witness_TransactionLeavesTheOtherPort :
    (∃ s t : State, exec (.bitrev7 21) s = .next t) ∧ ∃ s t : State, exec (.bitrev7G (onBus 8 149)) s = .next t :=
  ⟨⟨State.resetAt 8, _, rfl⟩, ⟨State.resetAt 8, _, rfl⟩⟩

theorem witness_InvalidArgumentIsTheOneCondition : ∃ (v : Bus) (s : State),
    v.width = s.wBus ∧ 128 ≤ v.bits.toNat ∧ v.bits.toNat = 128 := ⟨onBus 8 128, State.resetAt 8, by decide⟩

theorem witness_ConditionEndsAndLeavesNothing : ∃ (bad good bad' : Bus) (s t x : State),
    bad.width = s.wBus ∧ good.width = s.wBus ∧ 128 ≤ bad.bits.toNat ∧ good.bits.toNat ≤ 127 ∧
    bad'.width = s.wBus ∧ 128 ≤ bad'.bits.toNat ∧
    exec (.bitrev7G bad) s = .next t ∧ exec (.bitrev7 21) t = .next x :=
  ⟨onBus 8 128, onBus 8 127, onBus 8 255, State.resetAt 8, _, _, by decide, by decide, by decide, by decide,
    by decide, by decide, rfl, rfl⟩

theorem witness_ResultDependsOnTheOperandAlone : ∃ (i : Instr) (s s' : State),
    s.wBus = s'.wBus ∧ i.WellFormed s.wBus ∧ s ≠ s' :=
  ⟨.bitrev7G (onBus 8 149), State.resetAt 8, listed 8 [word21], by decide⟩

theorem witness_OrderOfTransactionsIsIrrelevant :
    [Instr.bitrev7 21, .bitrev7 1].Perm [.bitrev7 1, .bitrev7 21] := by decide

theorem witness_InstancesShareNothing : ∃ (sys : List State) (u u' : State), sys[1]? = some u ∧
    exec (.bitrev7 21) u = .next u' ∧ sys.length = 3 :=
  ⟨[State.resetAt 8, State.resetAt 16, State.resetAt 7], _, _, rfl, rfl, rfl⟩

theorem witness_DecodeOfEncode : (Instr.bitrev7G (onBus 7 127)).WellFormed 7 := by decide

theorem witness_EncodeOfDecode : ∃ (wBus : Nat) (w : PortWord) (i : Instr), 7 ≤ wBus ∧ decode wBus w = .ok i :=
  ⟨8, word149, .bitrev7G (onBus 8 149), by decide⟩

theorem witness_EveryWordOfAPortDecodes : FitsPort 8 word21 ∧ FitsPort 8 word149 := by decide

theorem witness_OtherLengthsAreNoWords : ∃ (s : State) (w : PortWord) (rest : List PortWord),
    ¬ FitsPort s.wBus w ∧ s.pending = w :: rest := ⟨listed 16 [word149], word149, [], by decide⟩

theorem witness_TableWordsRunAtOnce : 127 < 128 ∧ 9 ≤ 9 ∧ 511 < 2 ^ 9 := by decide

theorem witness_ListingLineReadsBack : (Instr.bitrev7 127).WellFormed 8 ∧
    (Instr.bitrev7G (onBus 8 255)).WellFormed 8 := by decide

end Sys2Proof.Machine.Test
end

section
/-! SUPPORT. Family `00_scope`: what a step keeps, that a step of a block in use completes, and runs. -/

namespace Sys2Proof.Machine

/-! ### What a transaction and a step keep -/

/-- A completed transaction drives at most one port (log entry 8) and leaves the bus width and the listing alone. -/
theorem exec_frame {i : Instr} {s t : State} (h : exec i s = .next t) :
    t.wBus = s.wBus ∧ (t.a = s.a ∨ t.i = s.i) ∧ t.pending = s.pending := by
  obtain ⟨a, -, rfl⟩ | ⟨v, -, hw, rfl⟩ := exec_cases h
  · exact ⟨rfl, .inr rfl, rfl⟩
  · exact ⟨hw, .inl rfl, rfl⟩

/-- A completed step does what a transaction does and takes the first listed word, if there is one. -/
theorem step_frame {s t : State} (h : step s = .next t) :
    t.wBus = s.wBus ∧ (t.a = s.a ∨ t.i = s.i) ∧ t.pending = s.pending.drop 1 := by
  obtain ⟨hp, rfl⟩ | ⟨w, rest, i, hp, -, he⟩ := step_cases h
  · exact ⟨rfl, .inl rfl, by simp [hp]⟩
  · obtain ⟨hw, hport, hrest⟩ := exec_frame he
    exact ⟨hw, hport, by simp [hrest, hp]⟩

/-- A completed step keeps a block in use: every word still listed was listed before, for the same bus width. -/
theorem State.InUse.of_step {s t : State} (hs : s.InUse) (h : step s = .next t) : t.InUse := by
  obtain ⟨hseven, hfit⟩ := hs
  obtain ⟨hw, -, hp⟩ := step_frame h
  refine ⟨hw ▸ hseven, fun w hmem => ?_⟩
  rw [hp] at hmem
  exact hw ▸ hfit w (List.mem_of_mem_drop hmem)

/-! ### What completes -/

/-- The word of a port is a well-formed instruction, on every bus of at least 7 bits (rules R4, R34). -/
theorem wellFormed_instrOf {wBus : Nat} (hw : 7 ≤ wBus) (p : Port) (n : Nat) : (instrOf wBus p n).WellFormed wBus := by
  cases p with
  | a => exact wellFormed_bitrev7 wBus _
  | i => exact wellFormed_bitrev7G_iff.mpr ⟨hw, rfl⟩

/-- A well-formed instruction completes in every state: no operand faults, and its bus value fits port `i`. -/
theorem exec_of_wellFormed {i : Instr} {s : State} (h : i.WellFormed s.wBus) : ∃ t, exec i s = .next t := by
  cases i with
  | bitrev7 a => exact ⟨_, exec_bitrev7 a s⟩
  | bitrev7G v => exact ⟨_, exec_bitrev7G_of_width (wellFormed_bitrev7G_iff.mp h).2⟩

/-- With nothing listed a step is idle (log entry 5). -/
theorem step_of_pending_nil {s : State} (hp : s.pending = []) : step s = .next s := by simp only [step, hp]

/-- With a word listed that decodes, a step is the transaction of that word. -/
theorem step_of_decode {s : State} {w : PortWord} {rest : List PortWord} {i : Instr}
    (hp : s.pending = w :: rest) (hd : decode s.wBus w = .ok i) : step s = exec i (s.withPending rest) := by
  simp only [step, hp, hd]

/-- A step of a block in use completes (rule R9): the next word, if there is one, fits its port, so it decodes to a
well-formed instruction. -/
theorem State.InUse.step_completes {s : State} (hs : s.InUse) : ∃ t, step s = .next t := by
  obtain ⟨hseven, hfit⟩ := hs
  cases hp : s.pending with
  | nil => exact ⟨s, step_of_pending_nil hp⟩
  | cons w rest =>
    have hd := decode_of_length (hfit w (by simp [hp]))
    rw [step_of_decode hp hd]
    exact exec_of_wellFormed (wellFormed_instrOf hseven _ _)

/-- Runs of a block in use complete and keep it in use, with as many listed words taken as there were steps. -/
theorem State.InUse.run_completes (k : Nat) {s : State} (hs : s.InUse) :
    ∃ t : State, Host.Core.run core k s = .next t ∧
      t.InUse ∧ t.wBus = s.wBus ∧ t.pending = s.pending.drop k := by
  induction k generalizing s with
  | zero => exact ⟨s, rfl, hs, rfl, rfl⟩
  | succ k ih =>
    obtain ⟨u, hu⟩ := hs.step_completes
    obtain ⟨huw, -, hup⟩ := step_frame hu
    obtain ⟨t, ht, htu, htw, htp⟩ := ih (hs.of_step hu)
    refine ⟨t, (run_succ_of_step k hu).trans ht, htu, htw.trans huw, ?_⟩
    rw [htp, hup, List.drop_drop, Nat.add_comm]

/-! ### The statements of the family -/

/-- Settles O2: `step_frame` says which words and which width a step leaves. -/
theorem stepKeepsInUse : Obligations.StepKeepsInUse :=
  fun _ _ hs h => ⟨hs.of_step h, (step_frame h).1⟩

/-- Settles O3, by induction on the number of steps with being in use as the invariant. -/
theorem everyRunCompletes : Obligations.EveryRunCompletes := by
  intro k s hs
  obtain ⟨t, ht, hfacts⟩ := hs.run_completes k
  refine ⟨⟨t, ht⟩, fun t' ht' => ?_⟩
  obtain rfl : t = t' := Host.Outcome.next.inj (ht.symm.trans ht')
  exact hfacts

/-- Settles O6, by the cases of a completed step and of the transaction it presents. -/
theorem stepDrivesAtMostOnePort : Obligations.StepDrivesAtMostOnePort := fun _ _ => step_frame

/-- Settles O4, by the definition of a step. -/
theorem stepRunsTheDecodedInstruction : Obligations.StepRunsTheDecodedInstruction :=
  fun _ _ _ _ => step_of_decode

/-- Settles O24: well-formedness gives the guarded operand the width of port `i`; any other width is refused. -/
theorem wellFormedInstructionsComplete : Obligations.WellFormedInstructionsComplete := by
  refine ⟨fun i s h => ?_, fun _ _ => exec_bitrev7G_of_width_ne⟩
  obtain ⟨t, ht⟩ := exec_of_wellFormed h
  exact ⟨t, ht, (exec_frame ht).1⟩

end Sys2Proof.Machine
end

section
/-! SUPPORT. Family `10_state`: the state after reset, and what each operand form leaves as it was. -/

namespace Sys2Proof.Machine

/-- The reset state lists nothing (log entry 4), so it is in use on every bus that rule R4 allows. -/
theorem inUse_resetAt {w : Nat} (hw : 7 ≤ w) : (State.resetAt w).InUse :=
  ⟨hw, fun _ hmem => absurd hmem List.not_mem_nil⟩

/-- A completed BITREV7 drove port `a` and did nothing else. -/
theorem eq_driveA_of_exec_bitrev7 {a : Word7} {s t : State} (h : exec (.bitrev7 a) s = .next t) :
    t = s.driveA a := by
  obtain ⟨_, hi, ht⟩ | ⟨_, hi, -, -⟩ := exec_cases h
  · obtain rfl := Instr.bitrev7.inj hi
    exact ht
  · cases hi

/-- A completed BITREV7.G drove port `i` with a value of its width and did nothing else. -/
theorem eq_driveI_of_exec_bitrev7G {v : Bus} {s t : State} (h : exec (.bitrev7G v) s = .next t) :
    v.width = s.wBus ∧ t = s.driveI v := by
  obtain ⟨_, hi, -⟩ | ⟨_, hi, hw, ht⟩ := exec_cases h
  · cases hi
  · obtain rfl := Instr.bitrev7G.inj hi
    exact ⟨hw, ht⟩

/-! ### The statements of the family -/

/-- Settles O1: the open width of the reset machine is at least 7, and `inUse_resetAt` holds of every such width. -/
theorem resetIsInUse : Obligations.ResetIsInUse :=
  ⟨inUse_resetAt seven_le_config_wBus, fun _ => inUse_resetAt⟩

/-- Settles O25: a completed transaction is `driveA` or `driveI`; driving port `i` keeps the bus width because the
operand has the width of the port. -/
theorem transactionLeavesTheOtherPort : Obligations.TransactionLeavesTheOtherPort := by
  refine ⟨fun a s t h => ?_, fun v s t h => ?_⟩
  · obtain rfl := eq_driveA_of_exec_bitrev7 h
    exact ⟨driveA_i s a, driveA_wBus s a, driveA_r s a, driveA_inv s a, driveA_condition s a, driveA_pending s a⟩
  · obtain ⟨hw, rfl⟩ := eq_driveI_of_exec_bitrev7G h
    exact ⟨driveI_a s v, driveI_y s v, (driveI_wBus s v).trans hw, driveI_pending s v⟩

end Sys2Proof.Machine
end

section
/-! SUPPORT. Family `20_memory`: a result depends on its operand alone, and so do several blocks in one system. -/

namespace Sys2Proof.Machine

/-! ### The result of a transaction -/

/-- The result a block with a `wBus`-bit host bus gives for a transaction, whatever state it is presented in (rules
R40, R50, R51); `none` for a bus value that does not fit port `i` (log entry 7). -/
def resultOn (wBus : Nat) : Instr → Option Result
  | .bitrev7 a  => some (.core (br7 a))
  | .bitrev7G v =>
    if v.width = wBus then some (.guarded (zextToBus v.width (br7 (busLow v))) (outOfRange v)) else none

/-- The host takes `resultOn` for a completed transaction: it drove the port whose outputs the host reads. -/
theorem resultIn_of_exec {i : Instr} {s t : State} (h : exec i s = .next t) :
    resultOn s.wBus i = some (resultIn t i) := by
  obtain ⟨a, rfl, rfl⟩ | ⟨v, rfl, hw, rfl⟩ := exec_cases h
  · simp [resultOn, resultIn]
  · simp [resultOn, resultIn, hw]

/-- A transaction that does not complete is refused, and has no result on its bus. -/
theorem exec_refused_of_not_next {i : Instr} {s : State} (h : ∀ t, exec i s ≠ .next t) :
    (∃ r, exec i s = .refused r) ∧ resultOn s.wBus i = none := by
  cases i with
  | bitrev7 a => exact absurd (exec_bitrev7 a s) (h _)
  | bitrev7G v =>
    have hw : v.width ≠ s.wBus := fun hw => h _ (exec_bitrev7G_of_width hw)
    exact ⟨⟨_, exec_bitrev7G_of_width_ne hw⟩, if_neg hw⟩

/-- Presenting a list notes `resultOn` for its first transaction and presents the others from a state of the same
bus width. -/
theorem transactions_cons (i : Instr) (is : List Instr) (s : State) :
    ∃ t : State, t.wBus = s.wBus ∧ transactions (i :: is) s = (i, resultOn s.wBus i) :: transactions is t := by
  by_cases hc : ∃ t, exec i s = .next t
  · obtain ⟨t, ht⟩ := hc
    exact ⟨t, (exec_frame ht).1, by simp only [transactions, ht, resultIn_of_exec ht]⟩
  · obtain ⟨⟨r, hr⟩, hnone⟩ := exec_refused_of_not_next (not_exists.mp hc)
    exact ⟨s, rfl, by simp only [transactions, hr, hnone]⟩

/-- The state enters what a list of transactions gives through its bus width alone. -/
theorem transactions_eq_map (is : List Instr) (s : State) :
    transactions is s = is.map fun i => (i, resultOn s.wBus i) := by
  induction is generalizing s with
  | nil => rfl
  | cons i is ih =>
    obtain ⟨t, hw, hcons⟩ := transactions_cons i is s
    rw [hcons, ih t, hw, List.map_cons]

/-! ### The operation twice, and the opposite significance -/

/-- The operation is its own inverse (rule R44): bit `k` comes from bit `6-(6-k)`. -/
@[simp] theorem br7_br7 (a : Word7) : br7 (br7 a) = a := by
  refine BitVec.eq_of_getLsbD_eq fun k hk => ?_
  have hback : 6 - (6 - k) = k := by omega
  rw [br7_getLsbD _ hk, br7_getLsbD _ (by omega), hback]

/-- A connection with the opposite significance computes the operation (rule R21). -/
@[simp] theorem oppositeSignificance_eq_br7 (v : Word7) : oppositeSignificance v = br7 v := by
  refine BitVec.eq_of_getLsbD_eq fun k hk => ?_
  rw [oppositeSignificance, BitVec.getLsbD_reverse, br7_getLsbD v hk]
  simp [BitVec.getMsbD, hk]

/-! ### Several blocks -/

/-- A transaction that block `k` completes replaces block `k` of the system. -/
theorem presentTo_of_exec {sys : List State} {k : Nat} {i : Instr} {u u' : State} (hk : sys[k]? = some u)
    (h : exec i u = .next u') : presentTo k i sys = .next (sys.set k u') := by
  induction sys generalizing k with
  | nil => simp at hk
  | cons v vs ih =>
    cases k with
    | zero =>
      obtain rfl : v = u := by simpa using hk
      simp [presentTo, h]
    | succ k => simp [presentTo, ih (k := k) (by simpa using hk)]

/-! ### The statements of the family -/

/-- Settles O28: on both states the result taken is the one that `resultOn` gives for their bus width. -/
theorem resultDependsOnTheOperandAlone : Obligations.ResultDependsOnTheOperandAlone := by
  intro i s s' hw hi
  obtain ⟨t, ht⟩ := exec_of_wellFormed hi
  obtain ⟨t', ht'⟩ := exec_of_wellFormed (hw ▸ hi)
  refine ⟨t, t', ht, ht', Option.some.inj ?_⟩
  rw [← resultIn_of_exec ht, ← resultIn_of_exec ht', hw]

/-- Settles O29: both lists are mapped by the one function of `transactions_eq_map`. -/
theorem orderOfTransactionsIsIrrelevant : Obligations.OrderOfTransactionsIsIrrelevant := by
  intro s l l' hperm
  rw [transactions_eq_map, transactions_eq_map]
  exact hperm.map _

/-- Settles O30: presenting to block `k` sets element `k` of the system, outputs are computed from the inputs, and
the operation is its own inverse. -/
theorem instancesShareNothing : Obligations.InstancesShareNothing := by
  refine ⟨fun sys k i u u' hk h => ?_, fun u v => ⟨fun ha => ?_, fun hi => ?_⟩, fun u1 _ => br7_br7 u1.a⟩
  · obtain ⟨hlt, -⟩ := List.getElem?_eq_some_iff.mp hk
    exact ⟨sys.set k u', presentTo_of_exec hk h, List.length_set, List.getElem?_set_self hlt,
      fun j hj => List.getElem?_set_ne hj.symm⟩
  · simp only [State.y, ha]
  · simp only [State.r, State.inv, State.wBus, hi, and_self]

/-- Settles O31: a reversed connection computes the operation, so exactly one undoes it and two leave it. (The name
of the obligation in lower case is that of the model's function.) -/
theorem oppositeSignificanceGivesIdentity : Obligations.OppositeSignificance := by
  intro a s
  refine ⟨_, _, exec_bitrev7 _ s, exec_bitrev7 a s, ?input, ?output, ?both⟩
  case input => rw [driveA_y, oppositeSignificance_eq_br7, br7_br7]
  case output => rw [driveA_y, oppositeSignificance_eq_br7, br7_br7]
  case both => rw [driveA_y, driveA_y, oppositeSignificance_eq_br7, oppositeSignificance_eq_br7, br7_br7]

end Sys2Proof.Machine
end

section
/-! SUPPORT. Family `30_encoding`: words of the two ports, words of the opcode table, and listing lines. -/

namespace Sys2Proof

/-! ### Levels of a word -/

/-- A value's low `m + n` levels are its low `m` levels and, above them, those of the quotient by `2^m`. -/
theorem valueBits_add (m n v : Nat) : valueBits (m + n) v = valueBits m v ++ valueBits n (v / 2 ^ m) := by
  induction m generalizing v with
  | zero => simp [valueBits]
  | succ m ih => simp [Nat.succ_add, valueBits, ih, Nat.div_div_eq_div_mul, Nat.pow_succ']

@[simp] theorem valueBits_zero_right (n : Nat) : valueBits n 0 = List.replicate n false := by
  induction n with
  | zero => rfl
  | succ n ih => simp [valueBits, ih, List.replicate_succ]

/-- The low `n` levels depend on the value reduced to `n` bits alone. -/
@[simp] theorem valueBits_mod_two_pow (n v : Nat) : valueBits n (v % 2 ^ n) = valueBits n v := by
  have h := valueBits_bitsValue (valueBits n v)
  rwa [length_valueBits, bitsValue_valueBits] at h

/-- The word of a bus of at least 7 bits: seven levels and, above them, those of the rest of the value. -/
theorem wires_eq_append {w : Nat} (hw : 7 ≤ w) (b : BitVec w) :
    wires b = valueBits 7 b.toNat ++ valueBits (w - 7) (b.toNat / 128) := by
  have h := valueBits_add 7 (w - 7) b.toNat
  rwa [Nat.add_sub_cancel' hw] at h

/-- The wires that carry the value of a list of levels carry these levels. -/
theorem wires_ofNat_bitsValue {w : Nat} {bs : List Bool} (h : bs.length = w) :
    wires (BitVec.ofNat w (bitsValue bs)) = bs := by
  subst h
  rw [wires, BitVec.toNat_ofNat, valueBits_mod_two_pow, valueBits_bitsValue]

/-! ### Decoding and encoding -/

/-- The word of an instruction is presented on the port whose row gives the instruction (rule R34). -/
@[simp] theorem port_encode_instrOf (wBus : Nat) (p : Port) (v : Nat) : (encode (instrOf wBus p v)).port = p := by
  cases p <;> rfl

/-- The operand has as many bits as its port has wires. -/
@[simp] theorem instrOf_mod (wBus : Nat) (p : Port) (v : Nat) :
    instrOf wBus p (v % 2 ^ formatLength wBus p) = instrOf wBus p v := by
  cases p <;> simp [instrOf, formatLength, ← BitVec.toNat_inj]

/-- A word of its port's length is the word of the instruction that its value gives. -/
theorem encode_instrOf_bitsValue {wBus : Nat} {w : PortWord} (h : w.levels.length = formatLength wBus w.port) :
    encode (instrOf wBus w.port (bitsValue w.levels)) = w := by
  obtain ⟨p, bs⟩ := w
  cases p with
  | a => exact congrArg (PortWord.mk .a) (wires_ofNat_bitsValue h)
  | i => exact congrArg (PortWord.mk .i) (wires_ofNat_bitsValue h)

/-- The word of a BITREV7 decodes to it on every bus. -/
theorem decode_encode_bitrev7 (wBus : Nat) (a : Word7) : decode wBus (encode (.bitrev7 a)) = .ok (.bitrev7 a) := by
  rw [decode_of_length (length_wires a)]
  simp [encode, instrOf]

/-- The word of a BITREV7.G decodes to it on a bus of its width. -/
theorem decode_encode_bitrev7G {wBus : Nat} (v : BitVec wBus) :
    decode wBus (encode (.bitrev7G ⟨wBus, v⟩)) = .ok (.bitrev7G ⟨wBus, v⟩) := by
  rw [decode_of_length (length_wires v)]
  simp [encode, instrOf]

/-- Decoding the word of a well-formed instruction gives it back. -/
theorem decode_encode {wBus : Nat} {i : Instr} (h : i.WellFormed wBus) : decode wBus (encode i) = .ok i := by
  cases i with
  | bitrev7 a => exact decode_encode_bitrev7 wBus a
  | bitrev7G v =>
    obtain ⟨-, rfl⟩ := wellFormed_bitrev7G_iff.mp h
    exact decode_encode_bitrev7G v.bits

/-- The bus width does not enter the words of port `a`. -/
theorem decode_eq_of_port_a {w : PortWord} (hp : w.port = .a) (m n : Nat) : decode m w = decode n w := by
  simp only [decode, hp, formatLength, instrOf]

/-- What decodes is well-formed; only words of port `i` need the bus to be as wide as rule R4 asks. -/
theorem wellFormed_of_decode {wBus : Nat} {w : PortWord} {i : Instr} (hw : w.port = .i → 7 ≤ wBus)
    (h : decode wBus w = .ok i) : i.WellFormed wBus := by
  obtain ⟨-, rfl⟩ := decode_eq_ok h
  cases hp : w.port with
  | a => exact wellFormed_bitrev7 wBus _
  | i => exact Machine.wellFormed_instrOf (hw hp) .i _

/-! ### Words of the opcode table -/

/-- A table word is one of its port on the bus that it asks for. -/
theorem length_tableWord (nbits w : Nat) :
    (tableWord nbits w).levels.length = formatLength (tableBusWidth nbits) (tableWord nbits w).port :=
  length_valueBits _ _

/-- A table word decodes to the instruction of its port with its `nbits` bits as operand. -/
theorem decode_tableWord (nbits w : Nat) : decode (tableBusWidth nbits) (tableWord nbits w) =
    .ok (instrOf (tableBusWidth nbits) (tablePort nbits w) (w % 2 ^ nbits)) := by
  rw [decode_of_length (length_tableWord nbits w)]
  simp only [tableWord, bitsValue_valueBits, instrOf_mod]

theorem decodeTableWord_eq (nbits w : Nat) : decodeTableWord nbits w =
    some (instrOf (tableBusWidth nbits) (tablePort nbits w) (w % 2 ^ nbits)) := by
  simp only [decodeTableWord, decode_tableWord]

end Sys2Proof

namespace Sys2Proof.Machine

@[simp] theorem withFetchWord_pending (s : State) (nbits w : Nat) :
    (s.withFetchWord nbits w).pending = tableWord nbits w :: s.pending := by
  cases hp : tablePort nbits w <;> simp [State.withFetchWord, hp]

/-- A table word of port `i` is put on a bus of the width that it asks for. -/
theorem withFetchWord_wBus {nbits w : Nat} (hp : tablePort nbits w = .i) (s : State) :
    (s.withFetchWord nbits w).wBus = tableBusWidth nbits := by
  simp [State.withFetchWord, hp, resizeBus]

/-- A machine given a table word decodes it as the table does. -/
theorem decode_withFetchWord (s : State) (nbits w : Nat) :
    decode (s.withFetchWord nbits w).wBus (tableWord nbits w) =
      decode (tableBusWidth nbits) (tableWord nbits w) := by
  cases hp : tablePort nbits w with
  | a => exact decode_eq_of_port_a hp _ _
  | i => rw [withFetchWord_wBus hp]

/-- The instruction of a table word is well-formed on a machine given that word. -/
theorem wellFormed_withFetchWord {s : State} {nbits w : Nat} {i : Instr}
    (hd : decode (s.withFetchWord nbits w).wBus (tableWord nbits w) = .ok i) :
    i.WellFormed (s.withFetchWord nbits w).wBus := by
  refine wellFormed_of_decode (fun hp => ?_) hd
  rw [withFetchWord_wBus hp]
  exact Nat.le_max_left 7 nbits

/-! ### The words of formats TW, R7 and RW -/

/-- Format TW: the field `u` stands above the field `a` (rule R32). -/
theorem wires_bus {v : Bus} (hw : 7 ≤ v.width) : wires v.bits = wires (busLow v) ++ wires (busUpper v) := by
  have hlow : wires (busLow v) = valueBits 7 v.bits.toNat := by
    rw [wires, busLow_toNat]
    exact valueBits_mod_two_pow 7 _
  have hup : wires (busUpper v) = valueBits (v.width - 7) (v.bits.toNat / 128) := by
    rw [wires, busUpper_toNat]
  rw [wires_eq_append hw, hlow, hup]

/-- A result on the bus has zeros above its seven bits (rules R32, R52). -/
theorem wires_zextToBus {w : Nat} (hw : 7 ≤ w) (y : Word7) :
    wires (zextToBus w y).bits = wires y ++ List.replicate (w - 7) false := by
  have hzero : y.toNat / 128 = 0 := Nat.div_eq_of_lt y.isLt
  rw [wires_eq_append (w := (zextToBus w y).width) hw, zextToBus_toNat hw, hzero, valueBits_zero_right]
  rfl

/-- Format R7: the result word is the operand word in reverse order (rule R31). -/
theorem wires_br7 (a : Word7) : wires (br7 a) = (wires a).reverse := by
  have hrange : (List.range 7).reverse = (List.range 7).map (6 - ·) := by decide
  rw [wires_eq_map, wires_eq_map, ← List.map_reverse, hrange, List.map_map]
  exact List.map_congr_left fun k hk => br7_getLsbD a (List.mem_range.mp hk)

/-! ### Numerals (rule R37) -/

theorem readDigits_cons {base d : Nat} {c : Char} (h : digitValue base c = some d) (acc : Nat) (cs : List Char) :
    readDigits base acc (c :: cs) = readDigits base (acc * base + d) cs := by
  simp only [readDigits, h]

theorem readDigits_append (base acc : Nat) (xs ys : List Char) :
    readDigits base acc (xs ++ ys) = (readDigits base acc xs).bind fun m => readDigits base m ys := by
  induction xs generalizing acc with
  | nil => rfl
  | cons x xs ih =>
    rw [List.cons_append, readDigits, readDigits]
    cases digitValue base x with
    | none => rfl
    | some d => exact ih _

theorem readNumeral_of_ne_nil {cs : List Char} (h : cs ≠ []) (base : Nat) :
    readNumeral base cs = readDigits base 0 cs := if_neg h

/-- A digit of a base up to 16 has its value, and also when it is written as a capital. -/
theorem digitValue_digitChar {base d : Nat} (hbase : base ≤ 16) (hd : d < base) :
    digitValue base d.digitChar = some d ∧ digitValue base d.digitChar.toUpper = some d := by
  have hall : ∀ b ≤ 16, ∀ e < b,
      digitValue b e.digitChar = some e ∧ digitValue b e.digitChar.toUpper = some e := by decide
  exact hall base hbase d hd

section Digits

/- A base, and a spelling `f` of its digits in which each digit has its value. -/
variable {base : Nat} {f : Char → Char} (hbase : 1 < base)
  (hf : ∀ d < base, digitValue base (f d.digitChar) = some d)
include hbase hf

/-- The digits of a number are read as that number: the last digit is the remainder, those before it the quotient. -/
theorem readDigits_toDigits (n : Nat) : readDigits base 0 ((Nat.toDigits base n).map f) = some n := by
  induction n using Nat.strongRecOn with
  | ind n ih =>
    rcases Nat.lt_or_ge n base with hn | hn
    · rw [Nat.toDigits_of_lt_base hn, List.map_singleton, readDigits_cons (hf n hn)]
      simp [readDigits]
    · have hq := ih (n / base) (Nat.div_lt_self (by omega) hbase)
      have hr := hf (n % base) (Nat.mod_lt n (by omega))
      rw [Nat.toDigits_of_base_le hbase hn, List.map_append, readDigits_append, hq, Option.bind_some,
        List.map_singleton, readDigits_cons hr, Nat.div_add_mod']
      rfl

/-- Leading zeros leave the value at 0. -/
theorem readNumeral_zeros_toDigits (n zeros : Nat) :
    readNumeral base (List.replicate zeros '0' ++ (Nat.toDigits base n).map f) = some n := by
  have hzero : readDigits base 0 (List.replicate zeros '0') = some 0 := by
    induction zeros with
    | zero => rfl
    | succ k ih =>
      have hdigit : digitValue base '0' = some 0 := by simpa [digitValue] using Nat.ne_zero_of_lt hbase
      rw [List.replicate_succ, readDigits_cons hdigit, Nat.zero_mul, ih]
  have hne : List.replicate zeros '0' ++ (Nat.toDigits base n).map f ≠ [] := by simp
  rw [readNumeral_of_ne_nil hne, readDigits_append, hzero, Option.bind_some, readDigits_toDigits hbase hf]

end Digits

/-- Leading zeros and the digits of a number, as `Nat.toDigits` writes them. -/
theorem readNumeral_toDigits {base : Nat} (hlow : 1 < base) (hhigh : base ≤ 16) (n zeros : Nat) :
    readNumeral base (List.replicate zeros '0' ++ Nat.toDigits base n) = some n := by
  simpa using readNumeral_zeros_toDigits (f := id) hlow (fun _ hd => (digitValue_digitChar hhigh hd).1) n zeros

/-- Leading zeros and the digits of a number, in capitals. -/
theorem readNumeral_toDigits_toUpper {base : Nat} (hlow : 1 < base) (hhigh : base ≤ 16) (n zeros : Nat) :
    readNumeral base (List.replicate zeros '0' ++ (Nat.toDigits base n).map Char.toUpper) = some n :=
  readNumeral_zeros_toDigits hlow (fun _ hd => (digitValue_digitChar hhigh hd).2) n zeros

/-- Decimal digits alone are never taken for an operand after `0b` or `0x`. -/
theorem readOperand_of_isDigit {cs : List Char} (h : ∀ c ∈ cs, c.isDigit) : readOperand cs = readNumeral 10 cs := by
  unfold readOperand
  split
  · exact absurd (h 'b' (by simp)) (by decide)
  · exact absurd (h 'x' (by simp)) (by decide)
  · rfl

theorem readOperand_decimal (n zeros : Nat) :
    readOperand (List.replicate zeros '0' ++ Nat.toDigits 10 n) = some n := by
  rw [readOperand_of_isDigit, readNumeral_toDigits (by decide) (by decide)]
  intro c hc
  rcases List.mem_append.mp hc with hc | hc
  · rw [List.eq_of_mem_replicate hc]
    rfl
  · exact Nat.isDigit_of_mem_toDigits (by decide) (by decide) hc

theorem readOperand_binary (cs : List Char) : readOperand ('0' :: 'b' :: cs) = readNumeral 2 cs := rfl

theorem readOperand_hexadecimal (cs : List Char) : readOperand ('0' :: 'x' :: cs) = readNumeral 16 cs := rfl

/-! ### Listing lines (rule R37) -/

/-- The binary numeral of a list of levels is read as its value: level 0 is the last digit. -/
theorem readDigits_binaryDigits (bs : List Bool) : readDigits 2 0 (binaryDigits bs) = some (bitsValue bs) := by
  induction bs with
  | nil => rfl
  | cons b bs ih =>
    have hdigit : digitValue 2 (if b then '1' else '0') = some b.toNat := by cases b <;> rfl
    have hsplit : binaryDigits (b :: bs) = binaryDigits bs ++ [if b then '1' else '0'] := by simp [binaryDigits]
    rw [hsplit, readDigits_append, ih, Option.bind_some, readDigits_cons hdigit, readDigits, bitsValue]
    congr 1
    omega

/-- The characters of a binary operand. -/
theorem mem_binaryOperand {bs : List Bool} {c : Char} (h : c ∈ '0' :: 'b' :: binaryDigits bs) :
    c = '0' ∨ c = 'b' ∨ c = '1' := by
  simp only [List.mem_cons, binaryDigits, List.mem_map] at h
  obtain rfl | rfl | ⟨b, -, rfl⟩ := h
  · exact .inl rfl
  · exact .inr (.inl rfl)
  · cases b <;> decide

theorem cutAtBlanks_append_blank {xs : List Char} (hx : ' ' ∉ xs) (ys : List Char) :
    cutAtBlanks (xs ++ ' ' :: ys) = xs :: cutAtBlanks ys := by
  induction xs with
  | nil => simp [cutAtBlanks]
  | cons x xs ih =>
    obtain ⟨hne, hxs⟩ := List.ne_and_not_mem_of_not_mem_cons hx
    simp [cutAtBlanks, Ne.symm hne, ih hxs]

theorem cutAtBlanks_of_not_mem {xs : List Char} (hx : ' ' ∉ xs) : cutAtBlanks xs = [xs] := by
  induction xs with
  | nil => rfl
  | cons x xs ih =>
    obtain ⟨hne, hxs⟩ := List.ne_and_not_mem_of_not_mem_cons hx
    simp [cutAtBlanks, Ne.symm hne, ih hxs]

/-- Blanks at the end leave empty pieces only. -/
theorem cutAtBlanks_append_blanks {xs : List Char} (hx : ' ' ∉ xs) (blanks : Nat) :
    cutAtBlanks (xs ++ List.replicate blanks ' ') = xs :: List.replicate blanks [] := by
  induction blanks generalizing xs with
  | zero => simpa using cutAtBlanks_of_not_mem hx
  | succ k ih =>
    rw [List.replicate_succ, cutAtBlanks_append_blank hx, ← List.nil_append (List.replicate k ' '),
      ih List.not_mem_nil, List.replicate_succ]

/-- A line of two pieces, with blanks and a comment after them, has these two pieces. -/
theorem linePieces_two {m n : List Char} (hm : m ≠ []) (hn : n ≠ []) (hmc : ' ' ∉ m ∧ ';' ∉ m)
    (hnc : ' ' ∉ n ∧ ';' ∉ n) (blanks : Nat) (comment : List Char) :
    linePieces (m ++ ' ' :: n ++ List.replicate blanks ' ' ++ ';' :: comment) = [m, n] := by
  obtain ⟨hmb, hms⟩ := hmc
  obtain ⟨hnb, hns⟩ := hnc
  have hclean : ∀ c ∈ m ++ ' ' :: n ++ List.replicate blanks ' ', decide (c ≠ ';') = true := by
    intro c hc
    refine decide_eq_true fun hsemi => ?_
    subst hsemi
    simp [hms, hns] at hc
  have hcut : cutAtBlanks (m ++ ' ' :: n ++ List.replicate blanks ' ') = m :: n :: List.replicate blanks [] := by
    rw [List.append_assoc, List.cons_append, cutAtBlanks_append_blank hmb, cutAtBlanks_append_blanks hnb]
  rw [linePieces, List.takeWhile_append_of_pos hclean, List.takeWhile_cons_of_neg (by simp), List.append_nil, hcut]
  simp [hm, hn]

/-- A line of two pieces, the letters of a row and an operand that its port can carry. -/
theorem readLine_of_pieces {wBus v : Nat} {line n : List Char} {p : Port}
    (hline : linePieces line = [mnemonicLetters p, n]) (hn : readOperand n = some v)
    (hv : v < 2 ^ formatLength wBus p) : readLine wBus line = some (instrOf wBus p v) := by
  cases p with
  | a => simp only [readLine, hline, hn, if_true, if_pos (show v < 2 ^ 7 from hv)]
  | i =>
    have hne : mnemonicLetters .i ≠ mnemonicLetters .a := by decide
    simp only [readLine, hline, hn, if_neg hne, if_true, if_pos (show v < 2 ^ wBus from hv)]

/-- The letters of a mnemonic are one piece of a line. -/
theorem mnemonicLetters_piece (p : Port) :
    mnemonicLetters p ≠ [] ∧ ' ' ∉ mnemonicLetters p ∧ ';' ∉ mnemonicLetters p := by
  cases p <;> decide

/-- A binary operand is one piece of a line. -/
theorem binaryOperand_piece (bs : List Bool) :
    ' ' ∉ '0' :: 'b' :: binaryDigits bs ∧ ';' ∉ '0' :: 'b' :: binaryDigits bs := by
  exact ⟨fun h => absurd (mem_binaryOperand h) (by decide), fun h => absurd (mem_binaryOperand h) (by decide)⟩

/-- A binary operand is read as the value of the levels that it writes; a numeral has one digit at least
(log entry 11). -/
theorem readOperand_binaryDigits {bs : List Bool} (h : bs ≠ []) :
    readOperand ('0' :: 'b' :: binaryDigits bs) = some (bitsValue bs) := by
  rw [readOperand_binary, readNumeral_of_ne_nil (by simpa [binaryDigits] using h), readDigits_binaryDigits]

/-- The word of a well-formed instruction has at least seven levels (rules R4, R30). -/
theorem levels_encode_ne_nil {wBus : Nat} {i : Instr} (h : i.WellFormed wBus) : (encode i).levels ≠ [] := by
  refine List.ne_nil_of_length_pos (Nat.zero_lt_of_lt (?_ : 6 < (encode i).levels.length))
  cases i with
  | bitrev7 a => exact (length_wires a).ge
  | bitrev7G v => exact (wellFormed_bitrev7G_iff.mp h).1.trans (length_wires v.bits).ge

/-- The listing line of a well-formed instruction reads back as it, whatever blanks and comment follow. -/
theorem readLine_writeLine {wBus : Nat} {i : Instr} (h : i.WellFormed wBus) (blanks : Nat) (comment : List Char) :
    readLine wBus (writeLine i ++ List.replicate blanks ' ' ++ ';' :: comment) = some i := by
  obtain ⟨hlen, hi⟩ := decode_eq_ok (decode_encode h)
  obtain ⟨hm, hmc⟩ := mnemonicLetters_piece (encode i).port
  have hpieces := linePieces_two hm (List.cons_ne_nil _ _) hmc (binaryOperand_piece (encode i).levels) blanks comment
  have hoperand := readOperand_binaryDigits (levels_encode_ne_nil h)
  have hbound := hlen ▸ bitsValue_lt (encode i).levels
  rw [writeLine, readLine_of_pieces hpieces hoperand hbound, ← hi]

/-! ### The statements of the family -/

/-- Settles O32: the word has its port's length, and its value is the operand. -/
theorem decodeOfEncode : Obligations.DecodeOfEncode := fun _ _ => decode_encode

/-- Settles O33: a word that decodes has its port's length, so its levels are those of its value. -/
theorem encodeOfDecode : Obligations.EncodeOfDecode := by
  intro wBus w i hw h
  obtain ⟨hlen, rfl⟩ := decode_eq_ok h
  exact ⟨encode_instrOf_bitsValue hlen, wellFormed_instrOf hw _ _⟩

/-- Settles O34: both masks are 0, and the levels listed are the wires of the operand. -/
theorem everyWordOfAPortDecodes : Obligations.EveryWordOfAPortDecodes := by
  refine ⟨fun p => ⟨?mask, ?pattern, rowOf_selects p⟩, rfl, rfl, fun wBus v => ?onA, fun wBus v => ?onI,
    fun wBus w hfit => ⟨_, decode_of_length hfit, ?row⟩⟩
  case mask => cases p <;> rfl
  case pattern => cases p <;> rfl
  case onA => rw [← wires_eq_map]; exact decode_encode_bitrev7 wBus v
  case onI => rw [← wires_eq_map]; exact decode_encode_bitrev7G v
  case row => rw [Instr.mnemonic, port_encode_instrOf]

/-- Settles O23: the word and the record are the wires of `i` and of `r`, cut at bit 7. -/
theorem guardedWordAndRecordLayout : Obligations.GuardedWordAndRecordLayout := by
  intro v s hs hw
  have hrecord : (resultIn (s.driveI v) (.bitrev7G v)).word =
      wires (br7 (busLow v)) ++ List.replicate (s.wBus - 7) false ++ [(s.driveI v).inv] := by
    simp only [resultIn, Result.word, driveI_r]
    rw [wires_zextToBus (hw ▸ hs), hw]
  refine ⟨s.driveI v, exec_bitrev7G_of_width hw, rfl, ?length, wires_bus (hw ▸ hs), fun h7 => ?empty,
    hrecord, ?record⟩
  case length => exact (length_wires v.bits).trans hw
  case empty => exact List.eq_nil_of_length_eq_zero (by rw [length_wires]; omega)
  case record => simp [hrecord]; omega

/-- Settles O37: a table word decodes on the machine it is given to, and what decodes there completes. -/
theorem tableWordsRunAtOnce : Obligations.TableWordsRunAtOnce := by
  refine ⟨fun s nbits w => ?runs, fun w hw => ?core, fun nbits w hn hw => ?guarded⟩
  case runs =>
    have hd := (decode_withFetchWord s nbits w).trans (decode_tableWord nbits w)
    have hstep := step_of_decode (withFetchWord_pending s nbits w) hd
    obtain ⟨t, ht⟩ := exec_of_wellFormed (s := (s.withFetchWord nbits w).withPending s.pending)
      (wellFormed_withFetchWord hd)
    obtain ⟨-, -, hpending⟩ := exec_frame ht
    exact ⟨_, t, decodeTableWord_eq nbits w, hstep, hstep.trans ht, hpending⟩
  case core =>
    have hport : tablePort 8 w = .a := if_pos ⟨.inr rfl, hw⟩
    rw [decodeTableWord_eq, hport, Nat.mod_eq_of_lt (by omega)]
    rfl
  case guarded =>
    have hport : tablePort nbits w = .i := if_neg (by omega)
    have hwidth : tableBusWidth nbits = nbits := Nat.max_eq_right (by omega)
    rw [decodeTableWord_eq, hport, hwidth, Nat.mod_eq_of_lt hw]
    rfl

/-- Settles O38: decimal and binary digits without leading zeros, and hexadecimal digits as `Nat.toDigits` writes
them. -/
theorem numeralsAreRead : Obligations.NumeralsAreRead := fun n =>
  ⟨readOperand_decimal n 0, readNumeral_toDigits (by decide) (by decide) n 0,
    readNumeral_toDigits (by decide) (by decide) n 0⟩

/-- Settles O40: leading zeros add nothing, and a capital has the value of the small letter. -/
theorem capitalsAndLeadingZerosAreRead : Obligations.CapitalsAndLeadingZerosAreRead := fun n zeros =>
  ⟨readOperand_decimal n zeros, readNumeral_toDigits (by decide) (by decide) n zeros,
    readNumeral_toDigits_toUpper (by decide) (by decide) n zeros⟩

/-- Settles O39: the line has two pieces, and its operand is the value of the instruction's word. -/
theorem listingLineReadsBack : Obligations.ListingLineReadsBack := by
  intro wBus i blanks comment h
  have hread := readLine_writeLine h blanks comment
  exact ⟨hread, by rw [lineWord, hread, Option.map_some]⟩

/-- Settles O16: bit `k` of `y` is bit `6-k` of the operand, so the seven wires are those of the operand reversed. -/
theorem resultWordIsTheMirroredOperandWord : Obligations.ResultWordIsTheMirroredOperandWord := fun a s =>
  ⟨s.driveA a, exec_bitrev7 a s, rfl, length_wires _, Nat.le_of_lt_succ (br7 a).isLt, wires_br7 a⟩

/-- Settles O35: `decode` refuses the length, and a step refuses by the name that `decode` gives. -/
theorem otherLengthsAreNoWords : Obligations.OtherLengthsAreNoWords := by
  intro s w rest hfit hp
  have hd : decode s.wBus w = .error .wrongLength := decode_of_length_ne hfit
  exact ⟨hd, by simp only [step, hp, hd]⟩

/-- Settles O36, by decoding each of the five words. -/
theorem wordsOfTheSpecDecode : Obligations.WordsOfTheSpecDecode := by
  unfold Obligations.WordsOfTheSpecDecode
  decide

end Sys2Proof.Machine
end

section
/-! SUPPORT. Family `40_bitrev7`: the seven bits and the seven terms of the result, the laws of a permutation of bit
positions, and the outputs that a listing gives. -/

namespace Sys2Proof.Machine

/-! ### A result is known by its seven bits -/

/-- Whatever takes bit `k` from bit `6-k` of the operand is the result (rule R42). -/
theorem eq_br7_of_bits {y a : Word7} (h : ∀ k < 7, y.getLsbD k = a.getLsbD (6 - k)) : y = br7 a :=
  BitVec.eq_of_getLsbD_eq fun k hk => (h k hk).trans (br7_getLsbD a hk).symm

theorem range_seven : List.range 7 = [0, 1, 2, 3, 4, 5, 6] := rfl

/-- The value of a 7-bit word is the sum of the weights of its bits (rule R5). -/
theorem word7_toNat (y : Word7) : y.toNat =
    64 * (y.getLsbD 6).toNat + 32 * (y.getLsbD 5).toNat + 16 * (y.getLsbD 4).toNat + 8 * (y.getLsbD 3).toNat +
      4 * (y.getLsbD 2).toNat + 2 * (y.getLsbD 1).toNat + 1 * (y.getLsbD 0).toNat := by
  rw [← bitsValue_wires y, wires_eq_map, range_seven]
  simp only [List.map, bitsValue]
  omega

/-- The value of the result, with the weights of the operand's bits in reverse (rule R40). -/
theorem br7_toNat (a : Word7) : (br7 a).toNat =
    64 * (a.getLsbD 0).toNat + 32 * (a.getLsbD 1).toNat + 16 * (a.getLsbD 2).toNat + 8 * (a.getLsbD 3).toNat +
      4 * (a.getLsbD 4).toNat + 2 * (a.getLsbD 5).toNat + 1 * (a.getLsbD 6).toNat := by
  rw [word7_toNat]
  simp (disch := decide) only [br7_getLsbD, Nat.reduceSub]

theorem toNat_mod_two_eq_one_iff (a : Word7) : a.toNat % 2 = 1 ↔ a.getLsbD 0 = true := by
  simp [BitVec.getLsbD, Nat.testBit_zero]

theorem sixtyFour_le_toNat_iff (a : Word7) : 64 ≤ a.toNat ↔ a.getLsbD 6 = true := by
  have hmsb : a.getLsbD 6 = decide (64 ≤ a.toNat) := a.msb_eq_getLsbD_last.symm.trans a.msb_eq_decide
  rw [hmsb, decide_eq_true_iff]

/-! ### The operation permutes bit positions (rule R46) -/

theorem br7_and (a b : Word7) : br7 (a &&& b) = br7 a &&& br7 b :=
  (eq_br7_of_bits fun k hk => by simp only [BitVec.getLsbD_and, br7_getLsbD _ hk]).symm

theorem br7_or (a b : Word7) : br7 (a ||| b) = br7 a ||| br7 b :=
  (eq_br7_of_bits fun k hk => by simp only [BitVec.getLsbD_or, br7_getLsbD _ hk]).symm

theorem br7_xor (a b : Word7) : br7 (a ^^^ b) = br7 a ^^^ br7 b :=
  (eq_br7_of_bits fun k hk => by simp only [BitVec.getLsbD_xor, br7_getLsbD _ hk]).symm

theorem br7_not (a : Word7) : br7 (~~~a) = ~~~(br7 a) :=
  (eq_br7_of_bits fun k hk => by
    have hk' : 6 - k < 7 := by omega
    simp only [BitVec.getLsbD_not, br7_getLsbD _ hk, hk, hk']).symm

/-- The number of one bits does not depend on the order of the wires. -/
theorem countP_br7 (a : Word7) : (List.range 7).countP (br7 a).getLsbD = (List.range 7).countP a.getLsbD := by
  have hcount (x : Word7) : (List.range 7).countP x.getLsbD = (wires x).countP id := by
    rw [wires_eq_map, List.countP_map]
    rfl
  rw [hcount, hcount, wires_br7, List.countP_reverse]

/-- Bit `p` alone goes to bit `6-p` alone. -/
theorem br7_two_pow {p : Nat} (hp : p < 7) : br7 (BitVec.ofNat 7 (2 ^ p)) = BitVec.ofNat 7 (2 ^ (6 - p)) := by
  have hall : ∀ q < 7, br7 (BitVec.ofNat 7 (2 ^ q)) = BitVec.ofNat 7 (2 ^ (6 - q)) := by decide
  exact hall p hp

/-- The mask of seven ones keeps every bit. -/
theorem and_127 (a : Word7) : a &&& 127 = a := BitVec.and_allOnes

/-- A right shift of the operand is a left shift of the result. -/
theorem br7_ushiftRight (a : Word7) (n : Nat) : br7 (a >>> n) = br7 a <<< n := by
  refine (eq_br7_of_bits fun k hk => ?_).symm
  rw [BitVec.getLsbD_shiftLeft, BitVec.getLsbD_ushiftRight]
  rcases Nat.lt_or_ge k n with hkn | hkn
  · have hout : 7 ≤ n + (6 - k) := by omega
    simp [hkn, BitVec.getLsbD_of_ge _ _ hout]
  · have hpos : 6 - (k - n) = n + (6 - k) := by omega
    rw [br7_getLsbD a (Nat.lt_of_le_of_lt (Nat.sub_le k n) hk), hpos]
    simp [hk, Nat.not_lt.mpr hkn]

/-- A left shift of the operand is a right shift of the result: the operation twice is the identity. -/
theorem br7_shiftLeft (a : Word7) (n : Nat) : br7 (a <<< n) = br7 a >>> n := by
  rw [← br7_br7 (br7 a >>> n), br7_ushiftRight, br7_br7]

/-! ### The seven terms (rule R41) -/

/-- Shifting bit `p` down and masking leaves its level. -/
theorem shift_and_one_toNat (a : Word7) (p : Nat) : ((a >>> p) &&& 1).toNat = (a.getLsbD p).toNat := by
  rw [BitVec.getLsbD, Nat.toNat_testBit]
  simp [Nat.and_one_is_mod, Nat.shiftRight_eq_div_pow]

/-- Term `p` is bit `p` with the weight of bit `6-p`; nothing is shifted out. -/
theorem br7Term_toNat (a : Word7) (p : Nat) : (br7Term a p).toNat = (a.getLsbD p).toNat * 2 ^ (6 - p) := by
  have hpow : 2 ^ (6 - p) ≤ 2 ^ 6 := Nat.pow_le_pow_right (by decide) (Nat.sub_le 6 p)
  have hbit := Bool.toNat_le (a.getLsbD p)
  have hfits : (a.getLsbD p).toNat * 2 ^ (6 - p) < 2 ^ 7 :=
    Nat.lt_of_le_of_lt (Nat.mul_le_mul hbit hpow) (by decide)
  rw [br7Term, BitVec.toNat_shiftLeft, shift_and_one_toNat, Nat.shiftLeft_eq, Nat.mod_eq_of_lt hfits]

/-- Term `p` is bit `p` at position `6-p`, and zero elsewhere. -/
theorem br7Term_getLsbD (a : Word7) (p j : Nat) :
    (br7Term a p).getLsbD j = (decide (j = 6 - p) && a.getLsbD p) := by
  rw [BitVec.getLsbD, br7Term_toNat]
  cases a.getLsbD p with
  | false => simp
  | true => simp [Nat.testBit_two_pow, eq_comm]

/-- Distinct terms have no one bit in common. -/
theorem br7Term_and_br7Term (a : Word7) {p q : Nat} (hp : p < 7) (hq : q < 7) (hne : p ≠ q) :
    br7Term a p &&& br7Term a q = 0 := by
  refine BitVec.eq_of_getLsbD_eq fun j _ => ?_
  rw [BitVec.getLsbD_and, br7Term_getLsbD, br7Term_getLsbD]
  by_cases hj : j = 6 - p
  · have hjq : j ≠ 6 - q := by omega
    simp [hjq]
  · simp [hj]

/-- At each position one term alone can have a one bit, and it is bit `6-k` of the operand. -/
theorem br7Terms_eq_br7 (a : Word7) : br7Terms a = br7 a := by
  refine eq_br7_of_bits fun k hk => ?_
  simp only [br7Terms, BitVec.getLsbD_or, br7Term_getLsbD]
  interval_cases k <;> simp

/-- The exclusive OR of the terms meets one term at each position too. -/
theorem foldl_xor_br7Term (a : Word7) : (List.range 7).foldl (fun x p => x ^^^ br7Term a p) 0 = br7 a := by
  refine eq_br7_of_bits fun k hk => ?_
  simp only [range_seven, List.foldl, BitVec.getLsbD_xor, br7Term_getLsbD]
  interval_cases k <;> simp

/-- The terms add up to the result: the weights of the operand's bits in reverse. -/
theorem sum_br7Term (a : Word7) : ((List.range 7).map fun p => (br7Term a p).toNat).sum = (br7 a).toNat := by
  rw [br7_toNat, range_seven]
  simp only [br7Term_toNat, List.map, List.sum_cons, List.sum_nil]
  omega

/-! ### Wires, inverse and fixed points (rules R42, R44, R45) -/

/-- The pairs (0,6), (1,5), (2,4) and bit 3 alone are `k` and `6-k`. -/
theorem crossedWire_eq {k : Nat} (hk : k < 7) : crossedWire k = 6 - k := by
  have hall : ∀ j < 7, crossedWire j = 6 - j := by decide
  exact hall k hk

theorem br7_involutive : Function.Involutive br7 := br7_br7

/-- A fixed point is a palindrome: three pairs of bits agree, and bit 3 is free. -/
theorem br7_eq_self_iff (a : Word7) : br7 a = a ↔ ∀ k < 3, a.getLsbD k = a.getLsbD (6 - k) := by
  refine ⟨fun h k hk => ?_, fun h => (eq_br7_of_bits fun k hk => ?_).symm⟩
  · have hbit := br7_getLsbD a (k := k) (by omega)
    rwa [h] at hbit
  · obtain hlow | rfl | hhigh : k < 3 ∨ k = 3 ∨ 6 - k < 3 := by omega
    · exact h k hlow
    · rfl
    · have hback : 6 - (6 - k) = k := by omega
      have hbit := h (6 - k) hhigh
      rw [hback] at hbit
      exact hbit.symm

/-- There are 16 palindromes among the 128 operands. -/
theorem length_filter_br7_eq_self :
    ((List.range 128).filter fun n => br7 (BitVec.ofNat 7 n) = BitVec.ofNat 7 n).length = 16 := by decide

/-! ### What the outputs are after a transaction, and along a listing -/

/-- The result on the bus, bit by bit: the seven bits of the reversal and zeros above. -/
theorem zextToBus_getLsbD {w : Nat} (hw : 7 ≤ w) (y : Word7) (k : Nat) :
    (zextToBus w y).bits.getLsbD k = y.getLsbD k := by
  rw [BitVec.getLsbD, zextToBus_toNat hw]
  rfl

/-- Bit `k` of `r` is bit `6-k` of the operand on `i` (rule R50). -/
theorem zextToBus_br7_busLow_getLsbD {w k : Nat} (hw : 7 ≤ w) (v : Bus) (hk : k < 7) :
    (zextToBus w (br7 (busLow v))).bits.getLsbD k = v.bits.getLsbD (6 - k) := by
  have hk' : 6 - k < 7 := by omega
  rw [zextToBus_getLsbD hw, br7_getLsbD _ hk, busLow_getLsbD, decide_eq_true hk', Bool.true_and]

/-- The level of `inv` as a comparison (rule R51). -/
theorem outOfRange_eq_decide (v : Bus) : outOfRange v = decide (128 ≤ v.bits.toNat) :=
  Bool.eq_iff_iff.mpr ((outOfRange_iff v).trans decide_eq_true_iff.symm)

/-- A step of a machine that has the word of a well-formed instruction listed next presents that instruction and
completes. -/
theorem step_of_pending_encode {s : State} {i : Instr} {rest : List PortWord} (hi : i.WellFormed s.wBus)
    (hp : s.pending = encode i :: rest) :
    ∃ t, step s = .next t ∧ exec i (s.withPending rest) = .next t := by
  obtain ⟨t, ht⟩ := exec_of_wellFormed (s := s.withPending rest) hi
  exact ⟨t, (step_of_decode hp (decode_encode hi)).trans ht, ht⟩

/-- A listing of well-formed instructions is run word by word: step `k+1` presents instruction `k`. -/
theorem run_of_pending_encode {k : Nat} {s : State} {is : List Instr} (hk : k < is.length)
    (hwf : ∀ i ∈ is, i.WellFormed s.wBus) (hp : s.pending = is.map encode) :
    ∃ u t : State, Host.Core.run core (k + 1) s = .next t ∧ exec is[k] u = .next t ∧
      t.pending = (is.drop (k + 1)).map encode := by
  induction is generalizing k s with
  | nil => exact absurd hk (Nat.not_lt_zero k)
  | cons i is ih =>
    obtain ⟨t, hstep, hexec⟩ := step_of_pending_encode (hwf i List.mem_cons_self) hp
    obtain ⟨hwBus, -, hrest⟩ := exec_frame hexec
    cases k with
    | zero => exact ⟨_, t, run_succ_of_step 0 hstep, hexec, hrest⟩
    | succ k =>
      have hwf' : ∀ j ∈ is, j.WellFormed t.wBus := fun j hj => hwBus ▸ hwf j (List.mem_cons_of_mem i hj)
      obtain ⟨u, t', hrun, hlast, hpend⟩ := ih (Nat.lt_of_succ_lt_succ hk) hwf' hrest
      exact ⟨u, t', (run_succ_of_step (k + 1) hstep).trans hrun, hlast, hpend⟩

/-! ### The statements of the family -/

/-- Settles O7: the listing is run word by word, and a completed transaction drove its port with its operand. -/
theorem listingGivesTheSpecifiedOutputs : Obligations.ListingGivesTheSpecifiedOutputs := by
  intro s is k hk hwf hp
  obtain ⟨u, t, hrun, hexec, hpend⟩ := run_of_pending_encode hk hwf hp
  refine ⟨t, hrun, hpend, fun a ha => ?core, fun v hv => ?guarded⟩
  case core =>
    obtain ⟨_, hget⟩ := List.getElem?_eq_some_iff.mp ha
    obtain rfl := eq_driveA_of_exec_bitrev7 (hget ▸ hexec)
    exact ⟨rfl, fun j hj => br7_getLsbD a hj⟩
  case guarded =>
    obtain ⟨_, hget⟩ := List.getElem?_eq_some_iff.mp hv
    obtain ⟨-, rfl⟩ := eq_driveI_of_exec_bitrev7G (hget ▸ hexec)
    obtain ⟨hw, -⟩ := wellFormed_bitrev7G_iff.mp (hwf _ (List.mem_of_getElem? hv))
    exact ⟨rfl, fun j hj => zextToBus_br7_busLow_getLsbD hw v hj,
      fun j hj => (zextToBus_getLsbD hw _ j).trans (BitVec.getLsbD_of_ge _ _ hj), outOfRange_eq_decide v⟩

/-- Settles O11: on 0..6 `crossedWire` is `6-k`, and a word is known by its seven bits. -/
theorem crossedWiresRealiseTheOperation : Obligations.CrossedWiresRealiseTheOperation := by
  refine ⟨fun a s => ⟨s.driveA a, exec_bitrev7 a s, fun k hk => ?_⟩, by decide, fun f hf => funext fun a => ?_⟩
  · rw [crossedWire_eq hk]
    exact br7_getLsbD a hk
  · exact eq_br7_of_bits fun k hk => crossedWire_eq hk ▸ hf a k hk

/-- Settles O12: an involution is a bijection and its own inverse. -/
theorem operationIsAnInvolution : Obligations.OperationIsAnInvolution :=
  ⟨fun a s => ⟨_, _, exec_bitrev7 a s, exec_bitrev7 _ _, br7_br7 a⟩, br7_involutive.bijective,
    fun _ _ => br7_involutive.eq_iff.trans eq_comm⟩

/-- Settles O14: each law follows from bit `k` of the result being bit `6-k` of the operand. -/
theorem permutationLaws : Obligations.PermutationLaws := by
  refine ⟨fun a b => ⟨br7_and a b, br7_or a b, br7_xor a b, br7_not a⟩, countP_br7, fun p => br7_two_pow,
    fun a => ?ends, fun a n _ => ?shifts, fun a => ?terms, by decide⟩
  case ends =>
    have h0 : (br7 a).getLsbD 0 = a.getLsbD 6 := br7_getLsbD a (by decide)
    have h6 : (br7 a).getLsbD 6 = a.getLsbD 0 := br7_getLsbD a (by decide)
    rw [toNat_mod_two_eq_one_iff, toNat_mod_two_eq_one_iff, sixtyFour_le_toNat_iff, sixtyFour_le_toNat_iff, h0, h6]
    exact ⟨Iff.rfl, Iff.rfl⟩
  case shifts =>
    rw [and_127, and_127]
    exact ⟨br7_ushiftRight a n, br7_shiftLeft a n⟩
  case terms =>
    rw [br7Terms_eq_br7]
    exact ⟨fun p hp q hq => br7Term_and_br7Term a hp hq, sum_br7Term a, foldl_xor_br7Term a⟩

/-- Settles O9: `y` stands at `br7 a`, whose bits and value are those of the rule; the operand and result words are
the wires of `a` and `y`. -/
theorem bitrev7ReversesItsOperand : Obligations.Bitrev7ReversesItsOperand := by
  intro a s
  refine ⟨s.driveA a, exec_bitrev7 a s, rfl, fun k hk => br7_getLsbD a hk, br7_toNat a,
    congrArg (PortWord.mk .a) (wires_eq_map a), rfl, rfl, wires_eq_map (br7 a), ?zero, ?ones, fun p hp ha => ?power,
    br7_getLsbD a (by decide), ?middle, ?worked⟩
  case power =>
    obtain rfl : a = BitVec.ofNat 7 (2 ^ p) := by rw [← ha, BitVec.ofNat_toNat, BitVec.setWidth_eq]
    have hlt : 2 ^ (6 - p) < 2 ^ 7 := Nat.pow_lt_pow_right (by decide) (by omega)
    rw [driveA_y, br7_two_pow hp, BitVec.toNat_ofNat, Nat.mod_eq_of_lt hlt]
  case zero | ones | middle | worked =>
    rintro rfl
    rw [driveA_y]
    decide

/-- Settles O10: term `p` is bit `p` with the weight of bit `6-p`, and the terms joined are the result. -/
theorem sevenTermsGiveTheSameResult : Obligations.SevenTermsGiveTheSameResult := by
  refine fun a s => ⟨s.driveA a, exec_bitrev7 a s, (br7Terms_eq_br7 a).symm,
    fun p _ => ⟨shift_and_one_toNat a p, br7Term_toNat a p, br7Term_getLsbD a p⟩, ?last⟩
  have htop : a.toNat / 64 < 2 := by
    have := a.isLt
    omega
  refine BitVec.eq_of_toNat_eq ?_
  simp [Nat.and_one_is_mod, Nat.shiftRight_eq_div_pow, Nat.mod_eq_of_lt htop]

/-- Settles O13: the palindromes are found among the 128 operands, and the others are what is left of these. -/
theorem fixedPointsAreThePalindromes : Obligations.FixedPointsAreThePalindromes := by
  refine ⟨by decide, by decide, br7_eq_self_iff, by decide, length_filter_br7_eq_self, ?others, by decide, br7_br7,
    by decide, by decide, by decide, by decide⟩
  have hsplit := (List.range 128).length_eq_length_filter_add
    (fun n => decide (br7 (BitVec.ofNat 7 n) = BitVec.ofNat 7 n))
  rw [length_filter_br7_eq_self, List.length_range] at hsplit
  simp only [ne_eq, decide_not]
  omega

end Sys2Proof.Machine
end

section
/-! SUPPORT. Family `41_bitrev7_guard`: the two fields of an operand on the bus, what `r` and `inv` say of each, the
counts of operands by result, and runs of a host that keeps its duty. -/

namespace Sys2Proof.Machine

/-! ### The field `u` and the output `inv` (rule R51) -/

/-- Field `u` is bit 7 and above of the operand; beyond the bus both are zero. -/
theorem busUpper_getLsbD (v : Bus) (j : Nat) : (busUpper v).getLsbD j = v.bits.getLsbD (7 + j) := by
  rw [busUpper, BitVec.getLsbD_extractLsb']
  rcases Nat.lt_or_ge j (v.width - 7) with hj | hj
  · rw [decide_eq_true hj, Bool.true_and]
  · have hout : v.width ≤ 7 + j := by omega
    rw [decide_eq_false (Nat.not_lt.mpr hj), Bool.false_and, BitVec.getLsbD_of_ge _ _ hout]

theorem outOfRange_eq_decide_ne_zero (v : Bus) : outOfRange v = decide (busUpper v ≠ 0) :=
  Bool.eq_iff_iff.mpr (bne_iff_ne.trans decide_eq_true_iff.symm)

/-- A level of `u` is 1 exactly when `u` is not 0. -/
theorem outOfRange_eq_any (v : Bus) :
    outOfRange v = (List.range (v.width - 7)).any fun j => v.bits.getLsbD (7 + j) := by
  rw [Bool.eq_iff_iff, List.any_eq_true, outOfRange, bne_iff_ne]
  refine ⟨fun hne => ?_, fun ⟨j, _, hj⟩ hzero => ?_⟩
  · by_contra hnone
    refine hne (BitVec.eq_of_getLsbD_eq fun j hj => ?_)
    have hbit : v.bits.getLsbD (7 + j) = false :=
      Bool.eq_false_iff.mpr fun hone => hnone ⟨j, List.mem_range.mpr hj, hone⟩
    rw [busUpper_getLsbD, hbit]
    exact BitVec.getLsbD_zero.symm
  · rw [← busUpper_getLsbD, hzero] at hj
    exact absurd hj (Bool.eq_false_iff.mp BitVec.getLsbD_zero)

theorem outOfRange_eq_false_iff (v : Bus) : outOfRange v = false ↔ v.bits.toNat ≤ 127 := by
  rw [outOfRange_eq_decide, decide_eq_false_iff_not]
  omega

/-- The low seven bits of `i` do not enter `inv`. -/
theorem inv_eq_of_upper_bits {s t : State} (hw : s.wBus = t.wBus)
    (h : ∀ k, 7 ≤ k → s.i.bits.getLsbD k = t.i.bits.getLsbD k) : s.inv = t.inv := by
  have hbits : (fun j => s.i.bits.getLsbD (7 + j)) = fun j => t.i.bits.getLsbD (7 + j) :=
    funext fun j => h (7 + j) (Nat.le_add_right 7 j)
  have hwidth : s.i.width = t.i.width := hw
  rw [State.inv, State.inv, outOfRange_eq_any, outOfRange_eq_any, hbits, hwidth]

/-! ### The field `a` and the output `r` (rules R50, R52) -/

theorem busLow_eq_of_low_bits {v v' : Bus} (h : ∀ k < 7, v.bits.getLsbD k = v'.bits.getLsbD k) :
    busLow v = busLow v' :=
  BitVec.eq_of_getLsbD_eq fun k hk => by rw [busLow_getLsbD, busLow_getLsbD, h k hk]

/-- The upper bits of `i` do not enter `r`. -/
theorem r_eq_of_low_bits {s t : State} (hw : s.wBus = t.wBus)
    (h : ∀ k < 7, s.i.bits.getLsbD k = t.i.bits.getLsbD k) : s.r = t.r := by
  rw [State.r, State.r, busLow_eq_of_low_bits h, hw]

/-- A widened result has zeros above its seven bits, on a bus of any width. -/
theorem zextToBus_getLsbD_of_ge (w : Nat) (y : Word7) {k : Nat} (hk : 7 ≤ k) :
    (zextToBus w y).bits.getLsbD k = false := by
  simp [zextToBus, BitVec.getLsbD_setWidth, BitVec.getLsbD_of_ge y k hk]

theorem zextToBus_toNat_le (w : Nat) (y : Word7) : (zextToBus w y).bits.toNat ≤ 127 := by
  have hmod : (zextToBus w y).bits.toNat = y.toNat % 2 ^ w := BitVec.toNat_setWidth w y
  have hle := Nat.mod_le y.toNat (2 ^ w)
  have hy := y.isLt
  omega

/-- A result presented as an operand is in the domain. -/
@[simp] theorem outOfRange_zextToBus (w : Nat) (y : Word7) : outOfRange (zextToBus w y) = false :=
  (outOfRange_eq_false_iff _).mpr (zextToBus_toNat_le w y)

/-- A result presented as an operand stands in field `a`. -/
theorem busLow_zextToBus {w : Nat} (hw : 7 ≤ w) (y : Word7) : busLow (zextToBus w y) = y := by
  refine BitVec.eq_of_toNat_eq ?_
  rw [busLow_toNat, zextToBus_toNat hw, Nat.mod_eq_of_lt y.isLt]

/-- An operand of the domain is its own field `a`, widened. -/
theorem zextToBus_busLow {v : Bus} (hw : 7 ≤ v.width) (hv : v.bits.toNat ≤ 127) :
    zextToBus v.width (busLow v) = v := by
  refine Bus.ext_toNat rfl ?_
  rw [zextToBus_toNat hw, busLow_toNat, Nat.mod_eq_of_lt (by omega)]

/-- The operand is `u` above `a` (rule R32). -/
theorem bus_toNat (v : Bus) : v.bits.toNat = 2 ^ 7 * (busUpper v).toNat + (busLow v).toNat := by
  rw [busUpper_toNat, busLow_toNat]
  exact (Nat.div_add_mod _ _).symm

theorem busLow_eq_ofNat (v : Bus) : busLow v = BitVec.ofNat 7 v.bits.toNat := by
  rw [← BitVec.toNat_inj, busLow_toNat, BitVec.toNat_ofNat]

theorem busLow_eq_ofNat_and_127 (v : Bus) : busLow v = BitVec.ofNat 7 (v.bits.toNat &&& 127) := by
  rw [Nat.and_two_pow_sub_one_eq_mod v.bits.toNat 7, ← BitVec.toNat_inj, busLow_toNat, BitVec.toNat_ofNat,
    Nat.mod_mod]

/-- Field `a` of a number on the bus is the number reduced to seven bits. -/
theorem busLow_ofNat {w : Nat} (hw : 7 ≤ w) (n : Nat) : busLow ⟨w, BitVec.ofNat w n⟩ = BitVec.ofNat 7 n := by
  rw [← BitVec.toNat_inj, busLow_toNat, BitVec.toNat_ofNat, BitVec.toNat_ofNat]
  exact Nat.mod_mod_of_dvd n (Nat.pow_dvd_pow 2 hw)

/-! ### The outputs after a guarded transaction, by the number on the bus -/

section Outputs

variable {v : Bus} (s : State)

/-- The numbers that `r` and `inv` show for the number presented on `i`. -/
theorem driveI_outputs (hw : 7 ≤ v.width) {n : Nat} (hn : v.bits.toNat = n) :
    (s.driveI v).r.bits.toNat = (br7 (BitVec.ofNat 7 n)).toNat ∧ (s.driveI v).inv = decide (128 ≤ n) := by
  subst hn
  refine ⟨?_, outOfRange_eq_decide v⟩
  rw [driveI_r, zextToBus_toNat hw, busLow_eq_ofNat]

/-- All ones: the seven low ones are reversed to themselves. -/
theorem driveI_outputs_of_all_ones (hw : 7 ≤ v.width) (hn : v.bits.toNat = 2 ^ v.width - 1) :
    (s.driveI v).r.bits.toNat = 127 ∧ (7 < v.width → (s.driveI v).inv = true) := by
  obtain ⟨d, hd⟩ := Nat.exists_eq_add_of_le hw
  have hpow : 2 ^ v.width = 128 * 2 ^ d := by rw [hd, Nat.pow_add]
  have hpos := Nat.two_pow_pos d
  have hlow : busLow v = 127 := by
    rw [← BitVec.toNat_inj, busLow_toNat]
    exact (by omega : v.bits.toNat % 128 = 127)
  refine ⟨?_, fun h7 => (outOfRange_iff v).mpr ?_⟩
  · rw [driveI_r, hlow, zextToBus_toNat hw]
    decide
  · have htwo : 2 ^ 1 ≤ 2 ^ d := Nat.pow_le_pow_right (by decide) (by omega)
    omega

/-- Low bits all zero and some bit set: nothing is left to reverse and the operand is at least 128. -/
theorem driveI_outputs_of_low_zero (hw : 7 ≤ v.width) (hlow : busLow v = 0) (hne : v.bits.toNat ≠ 0) :
    (s.driveI v).r.bits.toNat = 0 ∧ (s.driveI v).inv = true := by
  have hmod : v.bits.toNat % 128 = 0 := by
    rw [← busLow_toNat, hlow]
    rfl
  refine ⟨?_, (outOfRange_iff v).mpr (by omega)⟩
  rw [driveI_r, hlow, zextToBus_toNat hw]
  decide

end Outputs

/-- Presenting the result again gives field `a` back, widened (rules R54, R55 (2)). -/
theorem driveI_r_again {v : Bus} (hw : 7 ≤ v.width) (s : State) :
    ((s.driveI v).driveI (s.driveI v).r).r = zextToBus v.width (busLow v) := by
  rw [driveI_r, driveI_r, zextToBus_width, busLow_zextToBus hw, br7_br7]

/-- The result of a guarded transaction can be presented again: it has the width of port `i`. -/
theorem exec_bitrev7G_r (s : State) : exec (.bitrev7G s.r) s = .next (s.driveI s.r) :=
  exec_bitrev7G_of_width rfl

/-! ### How many operands give a result (rule R55 (4)) -/

/-- The result is `y` exactly when the low seven bits of the number are those of `br7 y`. -/
theorem driveI_ofNat_r_eq_iff {s : State} (hs : 7 ≤ s.wBus) (n : Nat) (y : Word7) :
    (s.driveI ⟨s.wBus, BitVec.ofNat s.wBus n⟩).r.bits.toNat = y.toNat ↔ n % 128 = (br7 y).toNat := by
  rw [driveI_r, zextToBus_toNat hs, BitVec.toNat_inj, busLow_ofNat hs, br7_involutive.eq_iff,
    ← BitVec.toNat_inj, BitVec.toNat_ofNat]

theorem driveI_ofNat_inv_eq_false_iff {s : State} {n : Nat} (hn : n < 2 ^ s.wBus) :
    (s.driveI ⟨s.wBus, BitVec.ofNat s.wBus n⟩).inv = false ↔ n ≤ 127 := by
  rw [driveI_inv, outOfRange_eq_false_iff, BitVec.toNat_ofNat, Nat.mod_eq_of_lt hn]

/-- Of the numbers below `2^w` one in 128 has given low seven bits. -/
theorem card_filter_low_bits {w c : Nat} (hw : 7 ≤ w) (hc : c < 128) :
    ((Finset.range (2 ^ w)).filter fun n => n % 128 = c).card = 2 ^ (w - 7) := by
  have hpow : 2 ^ w = 2 ^ (w - 7) * 128 := by
    rw [show (128 : Nat) = 2 ^ 7 from rfl, ← Nat.pow_add, Nat.sub_add_cancel hw]
  have hcount := Nat.count_modEq_card (2 ^ w) (r := 128) (by decide) c
  rw [Nat.count_eq_card_filter_range] at hcount
  simpa [Nat.ModEq, Nat.mod_eq_of_lt hc, hpow] using hcount

/-! ### A host that keeps its duty (rules R56, R73) -/

/-- The host keeps its duty now and in everything it has listed: every operand on `i` is at most 127. -/
def State.Dutiful (s : State) : Prop :=
  s.InDomain ∧ ∀ w ∈ s.pending, w.port = .i → bitsValue w.levels ≤ 127

/-- A word that is a BITREV7.G is one of port `i`, and its operand is no more than its value. -/
theorem instrOf_eq_bitrev7G {wBus n : Nat} {p : Port} {v : Bus} (h : instrOf wBus p n = .bitrev7G v) :
    p = .i ∧ v.bits.toNat ≤ n := by
  cases p with
  | a => cases h
  | i =>
    obtain rfl := Instr.bitrev7G.inj h
    exact ⟨rfl, (BitVec.toNat_ofNat n wBus).trans_le (Nat.mod_le n _)⟩

/-- A completed step of a dutiful host leaves it dutiful: what now stands on `i` stood there or was listed. -/
theorem State.Dutiful.of_step {s t : State} (hs : s.Dutiful) (h : step s = .next t) : t.Dutiful := by
  obtain ⟨hdom, hlisted⟩ := hs
  obtain ⟨-, -, hpending⟩ := step_frame h
  refine ⟨?_, fun w hmem => hlisted w (List.mem_of_mem_drop (hpending ▸ hmem))⟩
  obtain ⟨-, rfl⟩ | ⟨w, rest, i, hp, hd, he⟩ := step_cases h
  · exact hdom
  obtain ⟨a, -, rfl⟩ | ⟨v, rfl, -, rfl⟩ := exec_cases he
  · exact hdom
  · obtain ⟨-, hv⟩ := decode_eq_ok hd
    obtain ⟨hport, hle⟩ := instrOf_eq_bitrev7G hv.symm
    exact hle.trans (hlisted w (by simp [hp]) hport)

/-- A completed run of `k + 1` steps is a completed step and a completed run of `k` steps. -/
theorem step_of_run_succ {k : Nat} {s t : State} (h : Host.Core.run core (k + 1) s = .next t) :
    ∃ u : State, step s = .next u ∧ Host.Core.run core k u = .next t := by
  simp only [Host.Core.run] at h
  split at h
  · next u hu => exact ⟨u, hu, h⟩
  · cases h
  · cases h

/-- What every completed step keeps, every completed run keeps. -/
theorem run_invariant {P : State → Prop} (hP : ∀ s t : State, P s → step s = .next t → P t) (k : Nat)
    {s t : State} (hs : P s) (h : Host.Core.run core k s = .next t) : P t := by
  induction k generalizing s with
  | zero => exact Host.Outcome.next.inj h ▸ hs
  | succ k ih =>
    obtain ⟨u, hu, hrun⟩ := step_of_run_succ h
    exact ih (hP s u hs hu) hrun

/-! ### The statements of the family -/

/-- Settles O8: a run of a machine in use completes, and each of its steps keeps the host dutiful. -/
theorem dutifulHostNeverSeesInv : Obligations.DutifulHostNeverSeesInv := by
  intro k s hs hdom hlisted
  obtain ⟨t, ht, -⟩ := hs.run_completes k
  obtain ⟨htdom, -⟩ : t.Dutiful := run_invariant (fun _ _ => State.Dutiful.of_step) k ⟨hdom, hlisted⟩ ht
  have hinv : t.inv = false := (outOfRange_eq_false_iff t.i).mpr htdom
  exact ⟨t, ht, htdom, hinv, by simp [State.condition, hinv]⟩

/-- Settles O17: the transaction drives port `i`, and the corner cases compute `br7` of a known number. -/
theorem bitrev7GReversesTheLowBits : Obligations.Bitrev7GReversesTheLowBits := by
  intro v s hs hw
  have hv : 7 ≤ v.width := hw ▸ hs
  exact ⟨s.driveI v, exec_bitrev7G_of_width hw, rfl, hw ▸ driveI_r s v, zextToBus_toNat hv _,
    fun k hk => zextToBus_br7_busLow_getLsbD hv v hk, fun k hk => zextToBus_getLsbD_of_ge _ _ hk,
    outOfRange_eq_decide_ne_zero v, condition_eq_some_iff _ _, bus_toNat v,
    congrArg (PortWord.mk .i) (wires_eq_map v.bits), rfl, rfl, driveI_outputs s hv, driveI_outputs s hv,
    driveI_outputs s hv, driveI_outputs s hv, driveI_outputs_of_all_ones s hv, driveI_outputs_of_low_zero s hv,
    driveI_outputs s hv⟩

/-- Settles O18: `inv` is a function of field `u` and `r` one of field `a`. -/
theorem invIsTheOrOfTheUpperBits : Obligations.InvIsTheOrOfTheUpperBits :=
  ⟨fun s => ⟨outOfRange_eq_any s.i, outOfRange_eq_decide s.i, outOfRange_eq_decide_ne_zero s.i⟩,
    fun _ _ h => congrArg outOfRange h, fun _ _ => inv_eq_of_upper_bits, fun _ _ => r_eq_of_low_bits⟩

/-- Settles O19: `r` is a widened 7-bit word, and it is a function of field `a`. -/
theorem upperResultBitsAreZero : Obligations.UpperResultBitsAreZero :=
  ⟨fun _ => ⟨fun _ hk => zextToBus_getLsbD_of_ge _ _ hk, zextToBus_toNat_le _ _⟩,
    fun _ _ hw h => r_eq_of_low_bits hw h⟩

/-- Settles O21: in the domain the operand is its own field `a`, and the operation is its own inverse. -/
theorem guardedFormAgreesOnTheDomain : Obligations.GuardedFormAgreesOnTheDomain := by
  intro v s hs hw hdom
  have hv : 7 ≤ v.width := hw ▸ hs
  obtain ⟨hr, -⟩ := driveI_outputs s hv rfl
  exact ⟨s.driveI v, _, _, exec_bitrev7G_of_width hw, exec_bitrev7 _ s, (outOfRange_eq_false_iff v).mpr hdom,
    zextToBus_toNat_le _ _, fun k hk => zextToBus_br7_busLow_getLsbD hv v hk, hr, exec_bitrev7G_r _,
    (driveI_r_again hv s).trans (zextToBus_busLow hv hdom), outOfRange_zextToBus _ _⟩

/-- Settles O22: `r` and `inv` are functions of the two fields, and one number in 128 has given low bits. -/
theorem lawsOnTheWholeBus : Obligations.LawsOnTheWholeBus := by
  refine ⟨fun v s hs hw => ?again, fun s t hw => ⟨r_eq_of_low_bits hw, inv_eq_of_upper_bits hw⟩,
    fun s y hs => ⟨?all, ?inRange, fun h7 => ?notInjective⟩⟩
  case again =>
    have hv : 7 ≤ v.width := hw ▸ hs
    refine ⟨s.driveI v, _, exec_bitrev7G_of_width hw, ?_, exec_bitrev7G_r _, ?_, outOfRange_zextToBus _ _⟩
    · rw [driveI_r, zextToBus_toNat hv, busLow_eq_ofNat_and_127]
    · rw [driveI_r_again hv, zextToBus_toNat hv, busLow_toNat]
      exact (Nat.and_two_pow_sub_one_eq_mod _ 7).symm
  case all =>
    rw [Finset.filter_congr fun n _ => driveI_ofNat_r_eq_iff hs n y]
    exact card_filter_low_bits hs (br7 y).isLt
  case inRange =>
    have hy := (br7 y).isLt
    have hpow : 2 ^ 7 ≤ 2 ^ s.wBus := Nat.pow_le_pow_right (by decide) hs
    refine Finset.card_eq_one.mpr ⟨(br7 y).toNat, Finset.ext fun n => ?_⟩
    rw [Finset.mem_filter, Finset.mem_range, Finset.mem_singleton]
    constructor
    · rintro ⟨hn, hr, hinv⟩
      have hmod := (driveI_ofNat_r_eq_iff hs _ y).mp hr
      have hle := (driveI_ofNat_inv_eq_false_iff hn).mp hinv
      omega
    · rintro rfl
      have hn : (br7 y).toNat < 2 ^ s.wBus := by omega
      exact ⟨hn, (driveI_ofNat_r_eq_iff hs _ y).mpr (Nat.mod_eq_of_lt hy),
        (driveI_ofNat_inv_eq_false_iff hn).mpr (Nat.le_of_lt_succ hy)⟩
  case notInjective =>
    have hpow : 2 ^ 8 ≤ 2 ^ s.wBus := Nat.pow_le_pow_right (by decide) h7
    refine ⟨0, by omega, 128, by omega, by decide, ?_⟩
    rw [driveI_r, driveI_r, busLow_ofNat hs, busLow_ofNat hs]
    rfl

/-- Settles O20: on seven bits every operand is in the domain, and there is no wire above bit 6. -/
theorem sevenBitBusGivesTheCoreForm : Obligations.SevenBitBusGivesTheCoreForm := by
  intro n s hs hn
  have hnum : (BitVec.ofNat 7 n).toNat = n := Nat.mod_eq_of_lt hn
  obtain ⟨hr, hinv⟩ := driveI_outputs (v := ⟨7, BitVec.ofNat 7 n⟩) s (Nat.le_refl 7) hnum
  exact ⟨_, _, exec_bitrev7G_of_width hs.symm, exec_bitrev7 _ s, hr, hr,
    hinv.trans (decide_eq_false (Nat.not_le.mpr hn)), rfl⟩

end Sys2Proof.Machine
end

section
/-! SUPPORT. Family `60_exceptions`: when the one condition holds, and that it leaves nothing behind. -/

namespace Sys2Proof.Machine

/-! ### The condition, by the number on port `i` (rules R61, R63) -/

theorem condition_eq_invalidArgument_iff (s : State) :
    s.condition = some .invalidArgument ↔ ¬ s.i.bits.toNat ≤ 127 := by
  rw [condition_eq_some_iff, State.inv, outOfRange_iff, Nat.not_le]
  exact Iff.rfl

theorem condition_eq_none_iff (s : State) : s.condition = none ↔ s.i.bits.toNat ≤ 127 := by
  rw [← outOfRange_eq_false_iff, ← State.inv]
  cases h : s.inv <;> simp [State.condition, h]

/-! ### What an earlier transaction can alter -/

/-- Of the state before a transaction only the bus width decides whether it completes and what its result is. -/
theorem exec_result_of_wBus_eq {j : Instr} {s t x : State} (hw : t.wBus = s.wBus) (h : exec j t = .next x) :
    ∃ z : State, exec j s = .next z ∧ resultIn z j = resultIn x j := by
  have hx : resultOn s.wBus j = some (resultIn x j) := hw ▸ resultIn_of_exec h
  obtain ⟨z, hz⟩ : ∃ z, exec j s = .next z := by
    obtain ⟨a, rfl, -⟩ | ⟨v, rfl, hv, -⟩ := exec_cases h
    · exact ⟨_, exec_bitrev7 a s⟩
    · exact ⟨_, exec_bitrev7G_of_width (hv.trans hw)⟩
  exact ⟨z, hz, Option.some.inj ((resultIn_of_exec hz).symm.trans hx)⟩

/-! ### The statements of the family -/

/-- Settles O27: the operand that ends the condition replaces the one that raised it, and what any later transaction
meets of the latter is its width, the same as before. -/
theorem conditionEndsAndLeavesNothing : Obligations.ConditionEndsAndLeavesNothing := by
  intro bad good s hbad hgood hout hin
  have hafter {v : Bus} (hv : v.width = s.wBus) :
      exec (.bitrev7G v) (s.driveI bad) = .next (s.driveI v) :=
    exec_bitrev7G_of_width (hv.trans hbad.symm)
  exact ⟨s.driveI bad, s.driveI good, exec_bitrev7G_of_width hbad, (outOfRange_iff bad).mpr hout,
    hafter hgood, (outOfRange_eq_false_iff good).mpr hin, (condition_eq_none_iff _).mpr hin,
    exec_bitrev7G_of_width hgood, fun bad' hw hout' => ⟨_, hafter hw, (outOfRange_iff bad').mpr hout'⟩,
    fun _ _ => exec_result_of_wBus_eq hbad⟩

/-- Settles O15: BITREV7 answers the driven state, so it answers no fault and no refusal, and the host reads `y`. -/
theorem coreFormHasNoException : Obligations.CoreFormHasNoException := by
  intro a s
  refine ⟨s.driveA a, exec_bitrev7 a s, congrArg Result.core (driveA_y s a), ?_⟩
  rw [exec_bitrev7]
  exact ⟨fun _ => nofun, fun _ => nofun⟩

/-- Settles O26: the condition is decided by the number on `i`, and the transaction drives that port alone. -/
theorem invalidArgumentIsTheOneCondition : Obligations.InvalidArgumentIsTheOneCondition := by
  refine ⟨fun s => ⟨condition_eq_invalidArgument_iff s, condition_eq_none_iff s⟩, fun v s hw hout => ?_⟩
  exact ⟨s.driveI v, exec_bitrev7G_of_width hw,
    (condition_eq_invalidArgument_iff _).mpr (Nat.not_le.mpr hout), rfl⟩

end Sys2Proof.Machine
end

section
/-! SUPPORT. Family `70_reset_and_hazards`: the idle step of a block whose host has ceased to present operands. -/

namespace Sys2Proof.Machine

/-- Settles O5: `step` looks at the listing first, and on an empty one answers the state it was given. -/
theorem idleStepChangesNothing : Obligations.IdleStepChangesNothing :=
  fun _ hp => step_of_pending_nil hp

end Sys2Proof.Machine
end
